-- ==== Sys2Proof/Word.lean ====
section
/-! DEFINITION. The word types of the CHIP-8 core (00_scope.md R6, R8; 30_encoding.md R82). Every value is unsigned. -/

namespace Sys2Proof

/-- A byte: a V register, a timer, a memory cell, the immediate `nn` (10_state.md R21, R29; 20_memory.md R60). -/
abbrev Byte := BitVec 8

/-- A 16-bit word: `I`, `pc`, a stack entry, an instruction word (10_state.md R24, R26, R27). -/
abbrev Word := BitVec 16

/-- The 12-bit address or immediate `nnn` (30_encoding.md R82). -/
abbrev Addr := BitVec 12

/-- A 4-bit field: the immediate `n` or a sub-code (30_encoding.md R82). -/
abbrev Nibble := BitVec 4

/-- A 4-bit register index: value i names Vi (10_state.md R21). -/
abbrev Reg := BitVec 4

/-- The 16 key states; entry k is true when key k is pressed (10_state.md R30). -/
abbrev Keys := Vector Bool 16

/-- The 2048 one-bit pixels (10_state.md R31), a 64-bit word for each of the 32 screen rows: `fb[y*64 + x]` is bit x of
row y, that is, `fb[k]` is bit `k mod 64` of row `k / 64`.
DESIGN CHOICE (log entry 11): the layout is not observable. Safe. -/
abbrev Pixels := Vector (BitVec 64) 32

end Sys2Proof
end

