-- ==== Sys2Proof/Config.lean ====
section
/-! DEFINITION. What is fixed for a session: the fixed parameters of 00_scope.md R6, the types of the configuration
parameters of 00_scope.md R7, and the one free value of the model. The parameters' default VALUES are in
Machine/Params.lean. -/

namespace Sys2Proof

/-- MEM_SIZE: addresses 0x000..0xFFF (R6). -/
abbrev memSize : Nat := 4096

/-- STACK_DEPTH (R6). -/
abbrev stackDepth : Nat := 16

/-- NUM_KEYS (R6). -/
abbrev numKeys : Nat := 16

/-- FB_W, the pixels of one screen row (R6). -/
abbrev screenWidth : Nat := 64

/-- FB_W × FB_H (R6). -/
abbrev numPixels : Nat := 2048

/-- PROG_BASE: where programs are loaded and the first fetch happens (R6). -/
abbrev progBase : Nat := 0x200

/-- ROM_MAX = 4096 − 0x200 (R6). -/
abbrev romMax : Nat := 3584

/-- FONT_LEN: 16 glyphs of 5 bytes at FONT_BASE = 0 (R6). -/
abbrev fontLen : Nat := 80

/-- BCD_MODE: what the third byte of `Fx33` is (R7, 42_index_memory.md R183, decision D6). -/
inductive BcdMode where
  /-- The ones digit. -/
  | standard
  /-- The hundreds digit again, as the reference code is reported to do. -/
  | reference
  deriving DecidableEq, Repr

/-- LOAD_SUBCODE: the low byte that selects the block load (R7, 30_encoding.md R89, decision D5). -/
inductive LoadSubcode where
  | x65
  | x64
  deriving DecidableEq, Repr

/-- The low byte a LOAD_SUBCODE stands for. -/
def LoadSubcode.byte : LoadSubcode → Byte
  | .x65 => 0x65
  | .x64 => 0x64

/-- Key k is pressed (10_state.md R30). -/
def Keys.pressed (keys : Keys) (k : Reg) : Bool := keys[k.toNat]

/-- Some key is pressed (44_timers_keypad.md R242). -/
def Keys.anyPressed (keys : Keys) : Bool := keys.toList.any id

/-- The configuration parameters a session takes (00_scope.md R7, 10_state.md R37). They are arguments of the step, not
state. KEY_SELECT carries its own well-formedness: on a keypad with a pressed key it answers a pressed key (R244). -/
structure Params where
  /-- FONT: the 80 bytes construction copies to 0x000..0x04F (20_memory.md R64). -/
  font : Vector Byte fontLen
  bcdMode : BcdMode
  loadSubcode : LoadSubcode
  /-- KEY_SELECT (44_timers_keypad.md R244). -/
  keySelect : Keys → Reg
  keySelect_pressed : ∀ keys : Keys, keys.anyPressed = true → keys.pressed (keySelect keys) = true
  /-- RANDOM: the byte the n-th draw of the session gives (41_register_alu.md R160). -/
  random : Nat → Byte

/-- FREE VALUE (log entry 1): the byte the n-th execution of `Cxnn` draws. It has no body, so nothing proved about the
machine depends on which bytes are drawn (41_register_alu.md R160, 93_implementation_defined.md U1). -/
opaque Config.randomByte : Nat → Byte

end Sys2Proof
end

