-- ==== Sys2Proof/Machine/Params.lean ====
section
/-! DEFINITION. The default values of the configuration parameters (00_scope.md R7), which `step` and `State.reset` use. -/

namespace Sys2Proof.Machine

/-- The default FONT, glyph d in row d (20_memory.md R64).
PRESUMED (log entry 3): the spec takes these bytes from general knowledge. Unsafe. -/
def fontTable : List Byte :=
  [0xF0, 0x90, 0x90, 0x90, 0xF0] ++ [0x20, 0x60, 0x20, 0x20, 0x70] ++
  [0xF0, 0x10, 0xF0, 0x80, 0xF0] ++ [0xF0, 0x10, 0xF0, 0x10, 0xF0] ++
  [0x90, 0x90, 0xF0, 0x10, 0x10] ++ [0xF0, 0x80, 0xF0, 0x10, 0xF0] ++
  [0xF0, 0x80, 0xF0, 0x90, 0xF0] ++ [0xF0, 0x10, 0x20, 0x40, 0x40] ++
  [0xF0, 0x90, 0xF0, 0x90, 0xF0] ++ [0xF0, 0x90, 0xF0, 0x10, 0xF0] ++
  [0xF0, 0x90, 0xF0, 0x90, 0x90] ++ [0xE0, 0x90, 0xE0, 0x90, 0xE0] ++
  [0xF0, 0x80, 0x80, 0x80, 0xF0] ++ [0xE0, 0x90, 0x90, 0x90, 0xE0] ++
  [0xF0, 0x80, 0xF0, 0x80, 0xF0] ++ [0xF0, 0x80, 0xF0, 0x80, 0x80]

/-- The default LOAD_SUBCODE is 0x65 (decision D5). -/
def defaultLoadSubcode : LoadSubcode := .x65

/-- The default BCD_MODE is `standard` (decision D6). -/
def defaultBcdMode : BcdMode := .standard

/-- The default KEY_SELECT: the lowest pressed index, the first a scan from 0 to F finds (44_timers_keypad.md R244). -/
def lowestPressed (keys : Keys) : Reg := BitVec.ofNat 4 (keys.toList.findIdx id)

theorem lowestPressed_pressed (keys : Keys) (h : keys.anyPressed = true) :
    keys.pressed (lowestPressed keys) = true := by
  obtain ⟨b, hb, hid⟩ := List.any_eq_true.mp h
  have hlt : keys.toList.findIdx id < keys.toList.length :=
    List.findIdx_lt_length_of_exists ⟨b, hb, hid⟩
  have hlen : keys.toList.length = 16 := by simp
  have hget : keys.toList[keys.toList.findIdx id] = true :=
    List.findIdx_getElem (p := id) (w := hlt)
  have hnat : (lowestPressed keys).toNat = keys.toList.findIdx id := by
    simp only [lowestPressed, BitVec.toNat_ofNat]; omega
  simp only [Keys.pressed, hnat]
  simpa using hget

/-- The parameters at their defaults (00_scope.md R7); RANDOM is the free value of log entry 1.
DESIGN CHOICE (log entry 2): `step` is the machine at these defaults. Unsafe. -/
def defaultParams : Params where
  font := ⟨fontTable.toArray, by decide⟩
  bcdMode := defaultBcdMode
  loadSubcode := defaultLoadSubcode
  keySelect := lowestPressed
  keySelect_pressed := lowestPressed_pressed
  random := Config.randomByte

end Sys2Proof.Machine
end

