-- ==== Sys2Proof/WellFormed.lean ====
section
/-! DEFINITION. The opcode map of 30_encoding.md R91 as data, and which words and instructions are well formed: a word
when some row's mask and match select it (R86), an instruction when the spec's table has its row. The decoder is written
separately, by class and sub-code (Decode.lean). -/

namespace Sys2Proof

/-- One row of the opcode map: its number in R91, its match value and its mask. -/
structure OpcodeRow where
  number : Nat
  value : Word
  mask : Word
  deriving DecidableEq, Repr

/-- A row selects exactly the words with `(word AND mask) = match` (R86). -/
def OpcodeRow.selects (r : OpcodeRow) (w : Word) : Bool := w &&& r.mask == r.value

/-- Rows 1 to 9 of R91. -/
def opcodeRows1 : List OpcodeRow :=
  [⟨1, 0x00E0, 0xFFFF⟩, ⟨2, 0x00EE, 0xFFFF⟩, ⟨3, 0x1000, 0xF000⟩, ⟨4, 0x2000, 0xF000⟩, ⟨5, 0x3000, 0xF000⟩,
   ⟨6, 0x4000, 0xF000⟩, ⟨7, 0x5000, 0xF00F⟩, ⟨8, 0x6000, 0xF000⟩, ⟨9, 0x7000, 0xF000⟩]

/-- Rows 10 to 19 of R91: the two-register forms. -/
def opcodeRows2 : List OpcodeRow :=
  [⟨10, 0x8000, 0xF00F⟩, ⟨11, 0x8001, 0xF00F⟩, ⟨12, 0x8002, 0xF00F⟩, ⟨13, 0x8003, 0xF00F⟩, ⟨14, 0x8004, 0xF00F⟩,
   ⟨15, 0x8005, 0xF00F⟩, ⟨16, 0x8006, 0xF00F⟩, ⟨17, 0x8007, 0xF00F⟩, ⟨18, 0x800E, 0xF00F⟩, ⟨19, 0x9000, 0xF00F⟩]

/-- Rows 20 to 25 of R91. -/
def opcodeRows3 : List OpcodeRow :=
  [⟨20, 0xA000, 0xF000⟩, ⟨21, 0xB000, 0xF000⟩, ⟨22, 0xC000, 0xF000⟩, ⟨23, 0xD000, 0xF000⟩,
   ⟨24, 0xE09E, 0xF0FF⟩, ⟨25, 0xE0A1, 0xF0FF⟩]

/-- Rows 26 to 34 of R91; row 34's low byte is LOAD_SUBCODE (R89). -/
def opcodeRows4 (sub : LoadSubcode) : List OpcodeRow :=
  [⟨26, 0xF007, 0xF0FF⟩, ⟨27, 0xF00A, 0xF0FF⟩, ⟨28, 0xF015, 0xF0FF⟩, ⟨29, 0xF018, 0xF0FF⟩, ⟨30, 0xF01E, 0xF0FF⟩,
   ⟨31, 0xF029, 0xF0FF⟩, ⟨32, 0xF033, 0xF0FF⟩, ⟨33, 0xF055, 0xF0FF⟩, ⟨34, (0xF0 : Byte) ++ sub.byte, 0xF0FF⟩]

/-- The complete opcode map (R91). -/
def opcodeMap (sub : LoadSubcode) : List OpcodeRow :=
  opcodeRows1 ++ opcodeRows2 ++ opcodeRows3 ++ opcodeRows4 sub

/-- A word that selects an instruction; every other word is an unknown opcode (R86, R92). -/
def wordWellFormed (sub : LoadSubcode) (w : Word) : Bool := (opcodeMap sub).any (·.selects w)

/-- The number of an instruction's row in the opcode map (R91). -/
def Instr.rowNumber : Instr → Nat
  | .cls => 1
  | .ret => 2
  | .jp _ => 3
  | .call _ => 4
  | .seImm _ _ => 5
  | .sneImm _ _ => 6
  | .seReg _ _ => 7
  | .ldImm _ _ => 8
  | .addImm _ _ => 9
  | .ldReg _ _ => 10
  | .orReg _ _ => 11
  | .andReg _ _ => 12
  | .xorReg _ _ => 13
  | .addReg _ _ => 14
  | .subReg _ _ => 15
  | .shr _ _ => 16
  | .subnReg _ _ => 17
  | .shl _ _ => 18
  | .sneReg _ _ => 19
  | .ldI _ => 20
  | .jpV0 _ => 21
  | .rnd _ _ => 22
  | .drw _ _ _ => 23
  | .skp _ => 24
  | .sknp _ => 25
  | .ldVxDT _ => 26
  | .ldVxK _ => 27
  | .ldDTVx _ => 28
  | .ldSTVx _ => 29
  | .addI _ => 30
  | .ldF _ => 31
  | .ldB _ => 32
  | .ldMemVx _ => 33
  | .ldVxMem _ => 34

/-- An instruction is well formed when the opcode map has its row. Its operand fields cannot be out of range: their types
have the fields' widths (R82), and no value of a field is reserved within a row (R93), so this holds of every `Instr`. -/
def Instr.wellFormed (sub : LoadSubcode) (i : Instr) : Bool :=
  (opcodeMap sub).any (·.number == i.rowNumber)

end Sys2Proof
end

