-- ==== Sys2Proof/Decode.lean ====
section
/-! DEFINITION. Fields, decoder and encoder (30_encoding.md R82 to R94). The decoder dispatches on class, then sub-code
(R86) and is total: a word no branch recognises is an unknown opcode (R92, R93), rejected by name with the word. -/

namespace Sys2Proof

/-- word[15:12] (R82). -/
def fieldClass (w : Word) : Nibble := w.extractLsb' 12 4

/-- word[11:8] (R82). -/
def fieldX (w : Word) : Reg := w.extractLsb' 8 4

/-- word[7:4] (R82). -/
def fieldY (w : Word) : Reg := w.extractLsb' 4 4

/-- word[3:0] (R82). -/
def fieldN (w : Word) : Nibble := w.extractLsb' 0 4

/-- word[7:0] (R82). -/
def fieldNN (w : Word) : Byte := w.extractLsb' 0 8

/-- word[11:0] (R82). -/
def fieldNNN (w : Word) : Addr := w.extractLsb' 0 12

/-- Class 0: all 16 bits must match (R87). -/
def decodeClass0 (w : Word) : Option Instr :=
  if w = 0x00E0 then some .cls else if w = 0x00EE then some .ret else none

/-- Class 8: the sub-code is the low nibble (R88). -/
def decodeClass8 (w : Word) : Option Instr :=
  match (fieldN w).toNat with
  | 0x0 => some (.ldReg (fieldX w) (fieldY w))
  | 0x1 => some (.orReg (fieldX w) (fieldY w))
  | 0x2 => some (.andReg (fieldX w) (fieldY w))
  | 0x3 => some (.xorReg (fieldX w) (fieldY w))
  | 0x4 => some (.addReg (fieldX w) (fieldY w))
  | 0x5 => some (.subReg (fieldX w) (fieldY w))
  | 0x6 => some (.shr (fieldX w) (fieldY w))
  | 0x7 => some (.subnReg (fieldX w) (fieldY w))
  | 0xE => some (.shl (fieldX w) (fieldY w))
  | _ => none

/-- Class E: the sub-code is the low byte (R88). -/
def decodeClassE (w : Word) : Option Instr :=
  match (fieldNN w).toNat with
  | 0x9E => some (.skp (fieldX w))
  | 0xA1 => some (.sknp (fieldX w))
  | _ => none

/-- Class F: the sub-code is the low byte; the block load's is LOAD_SUBCODE (R88, R89). -/
def decodeClassF (sub : LoadSubcode) (w : Word) : Option Instr :=
  if fieldNN w = sub.byte then some (.ldVxMem (fieldX w)) else
  match (fieldNN w).toNat with
  | 0x07 => some (.ldVxDT (fieldX w))
  | 0x0A => some (.ldVxK (fieldX w))
  | 0x15 => some (.ldDTVx (fieldX w))
  | 0x18 => some (.ldSTVx (fieldX w))
  | 0x1E => some (.addI (fieldX w))
  | 0x29 => some (.ldF (fieldX w))
  | 0x33 => some (.ldB (fieldX w))
  | 0x55 => some (.ldMemVx (fieldX w))
  | _ => none

/-- The decoder under a given LOAD_SUBCODE; `none` is an unknown opcode (R86 to R92). -/
def decodeWith (sub : LoadSubcode) (w : Word) : Option Instr :=
  match (fieldClass w).toNat with
  | 0x0 => decodeClass0 w
  | 0x1 => some (.jp (fieldNNN w))
  | 0x2 => some (.call (fieldNNN w))
  | 0x3 => some (.seImm (fieldX w) (fieldNN w))
  | 0x4 => some (.sneImm (fieldX w) (fieldNN w))
  | 0x5 => if fieldN w = 0 then some (.seReg (fieldX w) (fieldY w)) else none
  | 0x6 => some (.ldImm (fieldX w) (fieldNN w))
  | 0x7 => some (.addImm (fieldX w) (fieldNN w))
  | 0x8 => decodeClass8 w
  | 0x9 => if fieldN w = 0 then some (.sneReg (fieldX w) (fieldY w)) else none
  | 0xA => some (.ldI (fieldNNN w))
  | 0xB => some (.jpV0 (fieldNNN w))
  | 0xC => some (.rnd (fieldX w) (fieldNN w))
  | 0xD => some (.drw (fieldX w) (fieldY w) (fieldN w))
  | 0xE => decodeClassE w
  | _ => decodeClassF sub w

/-- The decoder at the default LOAD_SUBCODE (R7). -/
def decode (w : Word) : Option Instr := decodeWith Machine.defaultLoadSubcode w

/-- Format `A`: class, then nnn (R84). -/
def encodeA (c : Nibble) (nnn : Addr) : Word := c ++ nnn

/-- Formats `XB` and `XS`: class, x, then a low byte that is an immediate or a sub-code (R84). -/
def encodeXB (c : Nibble) (x : Reg) (b : Byte) : Word := c ++ (x ++ b)

/-- Formats `XY` and `XYN`: class, x, y, then a low nibble that is a sub-code or a height (R84). -/
def encodeXY (c : Nibble) (x y : Reg) (n : Nibble) : Word := c ++ (x ++ (y ++ n))

/-- The word of an instruction under a given LOAD_SUBCODE (R84, R91). -/
def encodeWith (sub : LoadSubcode) : Instr → Word
  | .cls => 0x00E0
  | .ret => 0x00EE
  | .jp nnn => encodeA 0x1 nnn
  | .call nnn => encodeA 0x2 nnn
  | .seImm x nn => encodeXB 0x3 x nn
  | .sneImm x nn => encodeXB 0x4 x nn
  | .seReg x y => encodeXY 0x5 x y 0x0
  | .ldImm x nn => encodeXB 0x6 x nn
  | .addImm x nn => encodeXB 0x7 x nn
  | .ldReg x y => encodeXY 0x8 x y 0x0
  | .orReg x y => encodeXY 0x8 x y 0x1
  | .andReg x y => encodeXY 0x8 x y 0x2
  | .xorReg x y => encodeXY 0x8 x y 0x3
  | .addReg x y => encodeXY 0x8 x y 0x4
  | .subReg x y => encodeXY 0x8 x y 0x5
  | .shr x y => encodeXY 0x8 x y 0x6
  | .subnReg x y => encodeXY 0x8 x y 0x7
  | .shl x y => encodeXY 0x8 x y 0xE
  | .sneReg x y => encodeXY 0x9 x y 0x0
  | .ldI nnn => encodeA 0xA nnn
  | .jpV0 nnn => encodeA 0xB nnn
  | .rnd x nn => encodeXB 0xC x nn
  | .drw x y n => encodeXY 0xD x y n
  | .skp x => encodeXB 0xE x 0x9E
  | .sknp x => encodeXB 0xE x 0xA1
  | .ldVxDT x => encodeXB 0xF x 0x07
  | .ldVxK x => encodeXB 0xF x 0x0A
  | .ldDTVx x => encodeXB 0xF x 0x15
  | .ldSTVx x => encodeXB 0xF x 0x18
  | .addI x => encodeXB 0xF x 0x1E
  | .ldF x => encodeXB 0xF x 0x29
  | .ldB x => encodeXB 0xF x 0x33
  | .ldMemVx x => encodeXB 0xF x 0x55
  | .ldVxMem x => encodeXB 0xF x sub.byte

/-- The word of an instruction at the default LOAD_SUBCODE (R7). -/
def encode (i : Instr) : Word := encodeWith Machine.defaultLoadSubcode i

/-- The high byte, stored at the lower address (20_memory.md R61). -/
def wordHigh (w : Word) : Byte := w.extractLsb' 8 8

/-- The low byte, stored at the higher address (20_memory.md R61). -/
def wordLow (w : Word) : Byte := w.extractLsb' 0 8

/-- Big-endian assembly of an instruction word: the byte at the lower address holds bits 15..8 (20_memory.md R61). -/
def wordOfBytes (hi lo : Byte) : Word := hi ++ lo

/-- What the decoder makes of a sequence of bytes. -/
inductive Decoded where
  /-- An instruction, and the bytes after it. -/
  | instr (i : Instr) (rest : List Byte)
  /-- An unknown opcode, rejected by name with its word (R92). -/
  | unknownOpcode (w : Word)
  /-- Fewer than two bytes: no instruction word (R85). -/
  | truncated
  deriving DecidableEq, Repr

/-- The decoder on bytes as memory holds them, two bytes per instruction (R80, R85). -/
def decodeBytes : List Byte → Decoded
  | hi :: lo :: rest =>
    match decode (wordOfBytes hi lo) with
    | some i => .instr i rest
    | none => .unknownOpcode (wordOfBytes hi lo)
  | _ => .truncated

/-- The instruction the decoder reads from a word whose low `nbits` bits are those of `w` and whose other bits are 0. -/
def decodeTableWord (nbits w : Nat) : Option Instr :=
  let word : Word := BitVec.ofNat 16 (w % 2 ^ nbits)
  match decodeBytes [wordHigh word, wordLow word] with
  | .instr i _ => some i
  | _ => none

end Sys2Proof
end

