-- ==== Sys2Proof/Machine/Memory.lean ====
section
/-! DEFINITION. The memory `mem` of 20_memory.md R60: 4096 bytes, held as a canonical list of (address, byte) pairs. An
address the list does not name holds its contents after construction (R63). All addresses are exact integers (R66). -/

namespace Sys2Proof.Machine

/-- Listed bytes of memory, addresses strictly rising, none equal to what the unlisted address reads as. -/
abbrev Memory := List Host.Cell

/-- What an unlisted address reads as: its contents after construction, FONT in 0x000..0x04F and 0 elsewhere
(20_memory.md R63, R64). -/
def Memory.initial (a : Nat) : Byte := fontTable.getD a 0

/-- `MemRead(a, 1)` (00_scope.md R10). Every instruction has checked `a` against the bounds rule (20_memory.md R66).
DESIGN CHOICE (log entry 10): beyond 0xFFF, where none reads, an unlisted byte is 0. Safe. -/
def Memory.read : Memory → Nat → Byte
  | [], a => Memory.initial a
  | c :: m, a => if c.1 = a then c.2 else Memory.read m a

/-- The list without the address `a`, which then reads as its initial contents. -/
def Memory.erase (m : Memory) (a : Nat) : Memory := m.filter (·.1 ≠ a)

/-- Put a pair in its place in the order. -/
def Memory.insert : Memory → Nat → Byte → Memory
  | [], a, b => [(a, b)]
  | c :: m, a, b => if a < c.1 then (a, b) :: c :: m else c :: Memory.insert m a b

/-- `MemWrite(a, 1, b)` (00_scope.md R10), keeping the canonical form. -/
def Memory.write (m : Memory) (a : Nat) (b : Byte) : Memory :=
  if b = Memory.initial a then Memory.erase m a else Memory.insert (Memory.erase m a) a b

/-- The `k` bytes at `a`, `a + 1`, ... (00_scope.md R9). -/
def Memory.readBytes (m : Memory) (a : Nat) : Nat → List Byte
  | 0 => []
  | k + 1 => Memory.read m a :: Memory.readBytes m (a + 1) k

/-- Store the bytes at `a`, `a + 1`, ..., in that order (00_scope.md R9). -/
def Memory.writeBytes (m : Memory) (a : Nat) : List Byte → Memory
  | [] => m
  | b :: bs => Memory.writeBytes (Memory.write m a b) (a + 1) bs

/-- The canonical form: addresses strictly rising and below 4096, no entry equal to the unlisted contents. -/
def Memory.wf (m : Memory) : Bool :=
  decide (m.Pairwise (fun c d => c.1 < d.1)) && m.all (fun c => decide (c.1 < memSize) && decide (c.2 ≠ Memory.initial c.1))

/-- The bounds rule: `k` bytes at `a` are in range when `a + k ≤ 4096`; an access of zero bytes never faults
(20_memory.md R66). -/
def Memory.inRange (a k : Nat) : Bool := decide (k = 0) || decide (a + k ≤ memSize)

end Sys2Proof.Machine
end

