-- ==== Sys2Proof/Machine/State.lean ====
section
/-! DEFINITION. The state of the core (10_state.md R20), its fault reasons (60_exceptions.md R270), and the state right
after construction (R38). State is plain data. -/

namespace Sys2Proof.Machine

/-- The index that was out of range (60_exceptions.md R270, codes 2 to 7). -/
inductive OutOfBounds where
  /-- Code 2: the fetch at `pc > 0xFFE` (R276). -/
  | fetch (pc : Word)
  /-- Code 3: an access of `k` bytes at `a` (20_memory.md R66). -/
  | memory (a : Word) (k : Nat)
  /-- Code 4: `2nnn` with SP = 16. -/
  | stackOverflow
  /-- Code 5: `00EE` with SP = 0. -/
  | stackUnderflow
  /-- Code 6: `Ex9E` or `ExA1` with Vx > 15. -/
  | keyIndex (k : Byte)
  /-- Code 7: `Fx1E` with the exact sum `s` above 0xFFFF. -/
  | indexOverflow (s : Nat)
  deriving DecidableEq, Repr

/-- Why the core halted (60_exceptions.md R270). -/
inductive HaltReason where
  /-- Code 1: the word matches no row of the opcode map (30_encoding.md R92). -/
  | unknownOpcode (word : Word)
  | outOfBounds (index : OutOfBounds)
  deriving DecidableEq, Repr

/-- The execution status (10_state.md R33). -/
inductive Status where
  /-- The next cycle fetches and executes one instruction. -/
  | running
  /-- A `Fx0A` at pc waits for a key; the next cycle only re-checks the keypad. -/
  | awaitingKey (x : Reg)
  /-- A fault, terminal for the run. -/
  | halted (reason : HaltReason)
  deriving DecidableEq, Repr

/-- The whole state (10_state.md R20), and the model's own counter of random draws. -/
structure State where
  /-- 4096 bytes (20_memory.md R60). -/
  mem : Memory
  /-- V0..VF (10_state.md R21). -/
  v : Vector Byte 16
  /-- The index register I (R26). -/
  i : Word
  /-- The program counter (R24). -/
  pc : Word
  /-- The call stack's entries (R27). -/
  stack : Vector Word stackDepth
  /-- The stack depth, 0..16 (R28). -/
  sp : Fin (stackDepth + 1)
  /-- The delay timer (R29). -/
  dt : Byte
  /-- The sound timer (R29). -/
  st : Byte
  /-- The keypad (R30). -/
  keys : Keys
  /-- The framebuffer, 32 rows of 64 one-bit pixels (R31). -/
  fb : Pixels
  /-- The redraw signal (R32). -/
  redraw : Bool
  /-- The execution status (R33). -/
  status : Status
  /-- THE MODEL'S OWN: how many random bytes have been drawn (log entry 1). -/
  draws : Nat
  deriving DecidableEq, Repr

/-- Why a driver that surfaces faults stops (60_exceptions.md R274). -/
inductive Fault where
  /-- The core is Halted with this reason. Raised by `surface` (Machine/Cycle.lean), the driver's view of a cycle; never
  by `step`, where a fault is the next state's status (R273). Safe. -/
  | halted (reason : HaltReason)
  deriving DecidableEq, Repr

/-- Why an instruction has no meaning in the model. -/
inductive Refusal where
  /-- The instruction is not modelled. Raised by an arm of `exec` alone; no arm raises it now. Safe. -/
  | notModelled (mnemonic : String)
  deriving DecidableEq, Repr

/-- What an instruction or a cycle answers. -/
abbrev Result := Host.Outcome State Fault Refusal

/-- The machine right after construction with the default FONT (10_state.md R38, 70_reset_and_hazards.md R310). -/
def State.reset : State where
  mem := []
  v := Vector.replicate 16 0
  i := 0
  pc := 0x200
  stack := Vector.replicate stackDepth 0
  sp := 0
  dt := 0
  st := 0
  keys := Vector.replicate 16 false
  fb := Vector.replicate 32 0
  redraw := false
  status := .running
  draws := 0

end Sys2Proof.Machine
end

