-- ==== Sys2Proof/Machine/Ops.lean ====
section
/-! DEFINITION. The named operations over registers, memory, stack and status that the instructions share, and entering a
fault (60_exceptions.md R273). The core has no return from a fault (R277): none is defined. -/

namespace Sys2Proof.Machine

/-- `V[x]` (00_scope.md R10). -/
def State.getV (s : State) (x : Reg) : Byte := s.v[x.toNat]

/-- `V[x] <- b` (00_scope.md R10). -/
def State.setV (s : State) (x : Reg) (b : Byte) : State := { s with v := s.v.set x.toNat b }

/-- The index of VF, the flag register (10_state.md R22). -/
def regF : Reg := 0xF

/-- `MemRead(a, 1)` (00_scope.md R10). -/
def State.readByte (s : State) (a : Nat) : Byte := s.mem.read a

/-- `k` bytes from `a` on (00_scope.md R9). -/
def State.readBytes (s : State) (a k : Nat) : List Byte := s.mem.readBytes a k

/-- Store bytes from `a` on (00_scope.md R9). -/
def State.writeBytes (s : State) (a : Nat) (bs : List Byte) : State := { s with mem := s.mem.writeBytes a bs }

/-- `fb[k]` is 1 (10_state.md R31). -/
def Pixels.lit (fb : Pixels) (k : Nat) : Bool := (fb[k / screenWidth]?.getD 0).getLsbD (k % screenWidth)

/-- `fb[k] <- fb[k] XOR 1`, for `k < 2048` (43_display.md R211). -/
def Pixels.flip (fb : Pixels) (k : Nat) : Pixels :=
  fb.setIfInBounds (k / screenWidth) (fb[k / screenWidth]?.getD 0 ^^^ BitVec.twoPow 64 (k % screenWidth))

/-- Every pixel off (43_display.md R210). -/
def Pixels.clear : Pixels := Vector.replicate 32 0

/-- `pc <- target`. -/
def State.jumpTo (s : State) (target : Word) : State := { s with pc := target }

/-- The default advance, `pc <- pc + 2` (30_encoding.md R90). pc never reaches 0xFFFE where an instruction executes, so the
16-bit sum does not wrap (10_state.md R25).
DEDUCED (log entry 6). Unsafe only in states no run reaches. -/
def State.advance (s : State) : State := s.jumpTo (s.pc + 2)

/-- `skip_if(c)` (40_control_flow.md R110). -/
def State.skipIf (s : State) (c : Bool) : State := if c then s.jumpTo (s.pc + 4) else s.advance

/-- `raise F(info)`: status becomes Halted and every other element keeps its value (60_exceptions.md R273). -/
def State.halt (s : State) (r : HaltReason) : State := { s with status := .halted r }

/-- Entering a fault: the ONE operation by which an instruction or a cycle takes it (60_exceptions.md R273). -/
def raise (r : HaltReason) (s : State) : Result := .next (s.halt r)

/-- The numeric code of a fault (60_exceptions.md R270). -/
def HaltReason.code : HaltReason → Nat
  | .unknownOpcode _ => 1
  | .outOfBounds (.fetch _) => 2
  | .outOfBounds (.memory _ _) => 3
  | .outOfBounds .stackOverflow => 4
  | .outOfBounds .stackUnderflow => 5
  | .outOfBounds (.keyIndex _) => 6
  | .outOfBounds (.indexOverflow _) => 7

/-- Check the whole range of an access through I before anything is written (20_memory.md R66, 42_index_memory.md §0). -/
def withRange (k : Nat) (s : State) (done : State) : Result :=
  if Memory.inRange s.i.toNat k then .next done else raise (.outOfBounds (.memory s.i k)) s

/-- `stack[k]` (10_state.md R27). -/
def State.stackEntry (s : State) (k : Nat) : Word := s.stack[k]?.getD 0

/-- A push: `stack[SP] <- w; SP <- SP + 1` (10_state.md R27). Only done with SP < 16. -/
def State.push (s : State) (w : Word) : State :=
  { s with stack := s.stack.setIfInBounds s.sp.val w, sp := Fin.ofNat _ (s.sp.val + 1) }

/-- The depth part of a pop: `SP <- SP - 1`; the entry keeps its value (10_state.md R27). Only done with SP > 0. -/
def State.pop (s : State) : State := { s with sp := Fin.ofNat _ (s.sp.val - 1) }

/-- Store the flag, then the result: with x = F the result stands (41_register_alu.md R140). -/
def State.setFlagThen (s : State) (flag : Byte) (x : Reg) (result : Byte) : State := (s.setV regF flag).setV x result

/-- One draw: the byte the random source gives now, and the state after it (41_register_alu.md R160). -/
def drawByte (p : Params) (s : State) : Byte × State := (p.random s.draws, { s with draws := s.draws + 1 })

/-- A key is pressed: store KEY_SELECT's key and go on (44_timers_keypad.md R242, R243). -/
def State.takeKey (p : Params) (x : Reg) (s : State) : State :=
  (s.setV x ((p.keySelect s.keys).setWidth 8)).advance

/-- `MemRead` for registers: V0..V(k-1) from the bytes at `a` (42_index_memory.md R185). -/
def loadRegs (m : Memory) (a : Nat) : Nat → Vector Byte 16 → Vector Byte 16
  | 0, v => v
  | k + 1, v => (loadRegs m a k v).setIfInBounds k (m.read (a + k))

end Sys2Proof.Machine
end

