-- ==== Sys2Proof/Machine/Operands.lean ====
section
/-! DEFINITION. The operand forms of the instructions: zero-extended immediates and registers (30_encoding.md R83), key
numbers, register lists, decimal digits, glyph addresses and sprite rows. -/

namespace Sys2Proof.Machine

/-- `zext_16(nnn)` (30_encoding.md R83). -/
def zextAddr (nnn : Addr) : Word := nnn.setWidth 16

/-- `zext_16(b)` of a register or immediate byte (30_encoding.md R83). -/
def zextByte (b : Byte) : Word := b.setWidth 16

/-- The target of `Bnnn`: nnn + V0 + 2, at most 0x1100, so it fits in 16 bits (40_control_flow.md R118). -/
def indexedTarget (nnn : Addr) (v0 : Byte) : Word := zextAddr nnn + zextByte v0 + 2

/-- The key a register numbers; `none` when its value is above 15 (44_timers_keypad.md R240). -/
def keyNumber (k : Byte) : Option Reg := if k.toNat > 15 then none else some (k.setWidth 4)

/-- V0..Vx, the registers a block store writes (42_index_memory.md R184). -/
def regList (s : State) (x : Reg) : List Byte := s.v.toList.take (x.toNat + 1)

/-- `Vx * 5`, exact and unmasked (42_index_memory.md R182). -/
def glyphAddress (b : Byte) : Word := BitVec.ofNat 16 (b.toNat * 5)

/-- The hundreds digit (42_index_memory.md R183). -/
def bcdHundreds (b : Byte) : Byte := BitVec.ofNat 8 (b.toNat / 100)

/-- The tens digit (42_index_memory.md R183). -/
def bcdTens (b : Byte) : Byte := BitVec.ofNat 8 (b.toNat / 10 % 10)

/-- The third byte, by BCD_MODE (42_index_memory.md R183). -/
def bcdThird (mode : BcdMode) (b : Byte) : Byte :=
  match mode with
  | .standard => BitVec.ofNat 8 (b.toNat % 10)
  | .reference => BitVec.ofNat 8 (b.toNat / 100 % 10)

/-- The three bytes `Fx33` stores (42_index_memory.md R183). -/
def bcdDigits (mode : BcdMode) (b : Byte) : List Byte := [bcdHundreds b, bcdTens b, bcdThird mode b]

/-- The flat index of a sprite's first pixel, exact: column `xc` of row `yc` (43_display.md R211). -/
def spriteStart (xc yc : Byte) : Nat := yc.toNat * screenWidth + xc.toNat

/-- Bit `7 - c` of a sprite row: bit 7 is the leftmost column.
PRESUMED (log entry 4): the spec takes the bit order from general knowledge (43_display.md R213). Unsafe. -/
def spriteBit (row : Byte) (c : Nat) : Bool := row.getLsbD (7 - c)

/-- A framebuffer being drawn on, and whether a pixel has collided so far (43_display.md R211). -/
structure Canvas where
  fb : Pixels
  hit : Bool
  deriving DecidableEq, Repr

/-- XOR one pixel, remembering a collision with a lit one (43_display.md R211, R214). -/
def plot (idx : Nat) (p : Canvas) : Canvas :=
  { fb := Pixels.flip p.fb idx, hit := p.hit || Pixels.lit p.fb idx }

/-- The last `left` columns of a sprite row whose column 0 is at the flat index `start`. A set bit off the framebuffer
skips the remaining columns (43_display.md R211, R212). -/
def drawCols (row : Byte) (start : Nat) : Nat → Canvas → Canvas
  | 0, p => p
  | left + 1, p =>
    if spriteBit row (7 - left) then
      if start + (7 - left) ≥ numPixels then p
      else drawCols row start left (plot (start + (7 - left)) p)
    else drawCols row start left p

/-- The rows of a sprite, each one screen row (64 pixels) after the one before it (43_display.md R211). -/
def drawRows (start : Nat) : List Byte → Canvas → Canvas
  | [], p => p
  | row :: rows, p => drawRows (start + screenWidth) rows (drawCols row start 8 p)

end Sys2Proof.Machine
end

