-- ==== Sys2Proof/Machine/Flags.lean ====
section
/-! DEFINITION. The flag computations: what an instruction writes to VF (10_state.md R22, 41_register_alu.md R152). Each
is 0 or 1. -/

namespace Sys2Proof.Machine

/-- Carry: 1 when the exact sum is above 255 (41_register_alu.md R147). -/
def carryFlag (a b : Byte) : Byte := if a.toNat + b.toNat > 255 then 1 else 0

/-- No-borrow of `a - b`: strict, equal operands give 0 (41_register_alu.md R148, R150). -/
def noBorrowFlag (a b : Byte) : Byte := if a.toNat > b.toNat then 1 else 0

/-- The bit a right shift moves out, bit 0 (41_register_alu.md R149). -/
def lowBitFlag (a : Byte) : Byte := a &&& 0x01

/-- The bit a left shift moves out, bit 7 (41_register_alu.md R151). -/
def highBitFlag (a : Byte) : Byte := (a >>> 7) &&& 0x01

/-- Collision of a sprite (43_display.md R214). -/
def collisionFlag (hit : Bool) : Byte := if hit then 1 else 0

end Sys2Proof.Machine
end

