-- ==== Sys2Proof/Machine/ControlFlow.lean ====
section
/-! DEFINITION. Control flow (40_control_flow.md): return, jump, call, skips, indexed jump. -/

namespace Sys2Proof.Machine

/-- `00EE` RET (R111). -/
def execRet (s : State) : Result :=
  if s.sp.val = 0 then raise (.outOfBounds .stackUnderflow) s
  else .next (s.pop.jumpTo (s.pop.stackEntry s.pop.sp.val + 2))

/-- `1nnn` JP nnn (R112). -/
def execJp (nnn : Addr) (s : State) : Result := .next (s.jumpTo (zextAddr nnn))

/-- `2nnn` CALL nnn (R113): the saved value is the CALL's own address. -/
def execCall (nnn : Addr) (s : State) : Result :=
  if s.sp.val = stackDepth then raise (.outOfBounds .stackOverflow) s
  else .next ((s.push s.pc).jumpTo (zextAddr nnn))

/-- `3xnn` SE Vx, nn (R114). -/
def execSeImm (x : Reg) (nn : Byte) (s : State) : Result := .next (s.skipIf (s.getV x == nn))

/-- `4xnn` SNE Vx, nn (R115). -/
def execSneImm (x : Reg) (nn : Byte) (s : State) : Result := .next (s.skipIf (s.getV x != nn))

/-- `5xy0` SE Vx, Vy (R116). -/
def execSeReg (x y : Reg) (s : State) : Result := .next (s.skipIf (s.getV x == s.getV y))

/-- `9xy0` SNE Vx, Vy (R117). -/
def execSneReg (x y : Reg) (s : State) : Result := .next (s.skipIf (s.getV x != s.getV y))

/-- `Bnnn` JP V0, nnn, with the extra advance of 2 (R118). -/
def execJpV0 (nnn : Addr) (s : State) : Result := .next (s.jumpTo (indexedTarget nnn (s.getV 0)))

end Sys2Proof.Machine
end

