-- ==== Sys2Proof/Machine/Display.lean ====
section
/-! DEFINITION. Display (43_display.md): clear screen and the sprite rasterizer. -/

namespace Sys2Proof.Machine

/-- `00E0` CLS: redraw is set whether or not a pixel changed (R210). -/
def execCls (s : State) : Result := .next { s with fb := Pixels.clear, redraw := true }.advance

/-- The framebuffer and collision after drawing the `n` bytes at I at column Vx, row Vy (R211). -/
def drawSprite (s : State) (x y : Reg) (n : Nibble) : Canvas :=
  drawRows (spriteStart (s.getV x) (s.getV y)) (s.readBytes s.i.toNat n.toNat) { fb := s.fb, hit := false }

/-- The state after a sprite was drawn: VF is written once, after the last pixel, and redraw is set (R211, R214). -/
def showCanvas (s : State) (c : Canvas) : State :=
  { (s.setV regF (collisionFlag c.hit)) with fb := c.fb, redraw := true }

/-- `Dxyn` DRW Vx, Vy, n (R211 to R215). -/
def execDrw (x y : Reg) (n : Nibble) (s : State) : Result :=
  withRange n.toNat s (showCanvas s (drawSprite s x y n)).advance

end Sys2Proof.Machine
end

