-- ==== Sys2Proof/Machine/IndexMemory.lean ====
section
/-! DEFINITION. The index register and memory transfers (42_index_memory.md). The whole range of an access is checked before
any byte is read or written, I is unchanged by every access, and none writes VF as a flag. -/

namespace Sys2Proof.Machine

/-- `Annn` LD I, nnn (R180). -/
def execLdI (nnn : Addr) (s : State) : Result := .next { s with i := zextAddr nnn }.advance

/-- `Fx1E` ADD I, Vx: an exact sum above 0xFFFF faults; VF is unchanged (R181). -/
def execAddI (x : Reg) (s : State) : Result :=
  if s.i.toNat + (s.getV x).toNat > 0xFFFF then
    raise (.outOfBounds (.indexOverflow (s.i.toNat + (s.getV x).toNat))) s
  else .next { s with i := s.i + zextByte (s.getV x) }.advance

/-- `Fx29` LD F, Vx (R182). -/
def execLdF (x : Reg) (s : State) : Result := .next { s with i := glyphAddress (s.getV x) }.advance

/-- `Fx33` LD B, Vx in a given BCD_MODE (R183). -/
def storeDigits (p : Params) (x : Reg) (s : State) : Result :=
  withRange 3 s (s.writeBytes s.i.toNat (bcdDigits p.bcdMode (s.getV x))).advance

/-- `Fx33` LD B, Vx in the default BCD_MODE (R183). -/
def execLdB (x : Reg) (s : State) : Result := storeDigits defaultParams x s

/-- `Fx55` LD [I], Vx (R184). -/
def execLdMemVx (x : Reg) (s : State) : Result :=
  withRange (x.toNat + 1) s (s.writeBytes s.i.toNat (regList s x)).advance

/-- `Fx65` LD Vx, [I] (R185). -/
def execLdVxMem (x : Reg) (s : State) : Result :=
  withRange (x.toNat + 1) s { s with v := loadRegs s.mem s.i.toNat (x.toNat + 1) s.v }.advance

end Sys2Proof.Machine
end

