-- ==== Sys2Proof/Machine/RegisterAlu.lean ====
section
/-! DEFINITION. Register loads, arithmetic, logic, shifts and random (41_register_alu.md). Arithmetic wraps modulo 256
(10_state.md R23). None of these can fault. -/

namespace Sys2Proof.Machine

/-- `6xnn` LD Vx, nn (R141). -/
def execLdImm (x : Reg) (nn : Byte) (s : State) : Result := .next (s.setV x nn).advance

/-- `7xnn` ADD Vx, nn, without a flag (R142). -/
def execAddImm (x : Reg) (nn : Byte) (s : State) : Result := .next (s.setV x (s.getV x + nn)).advance

/-- `8xy0` LD Vx, Vy (R143). -/
def execLdReg (x y : Reg) (s : State) : Result := .next (s.setV x (s.getV y)).advance

/-- `8xy1` OR Vx, Vy; VF is not reset (R144). -/
def execOrReg (x y : Reg) (s : State) : Result := .next (s.setV x (s.getV x ||| s.getV y)).advance

/-- `8xy2` AND Vx, Vy; VF is not reset (R145). -/
def execAndReg (x y : Reg) (s : State) : Result := .next (s.setV x (s.getV x &&& s.getV y)).advance

/-- `8xy3` XOR Vx, Vy; VF is not reset (R146). -/
def execXorReg (x y : Reg) (s : State) : Result := .next (s.setV x (s.getV x ^^^ s.getV y)).advance

/-- `8xy4` ADD Vx, Vy (R147). -/
def execAddReg (x y : Reg) (s : State) : Result :=
  .next (s.setFlagThen (carryFlag (s.getV x) (s.getV y)) x (s.getV x + s.getV y)).advance

/-- `8xy5` SUB Vx, Vy (R148). -/
def execSubReg (x y : Reg) (s : State) : Result :=
  .next (s.setFlagThen (noBorrowFlag (s.getV x) (s.getV y)) x (s.getV x - s.getV y)).advance

/-- `8xy6` SHR Vx, Vy; Vy is neither read nor written (R149). -/
def execShr (x _y : Reg) (s : State) : Result :=
  .next (s.setFlagThen (lowBitFlag (s.getV x)) x (s.getV x >>> 1)).advance

/-- `8xy7` SUBN Vx, Vy (R150). -/
def execSubnReg (x y : Reg) (s : State) : Result :=
  .next (s.setFlagThen (noBorrowFlag (s.getV y) (s.getV x)) x (s.getV y - s.getV x)).advance

/-- `8xyE` SHL Vx, Vy; Vy is neither read nor written (R151). -/
def execShl (x _y : Reg) (s : State) : Result :=
  .next (s.setFlagThen (highBitFlag (s.getV x)) x (s.getV x <<< 1)).advance

/-- `Cxnn` RND Vx, nn, drawing from a given random source (R160). -/
def randomMasked (p : Params) (x : Reg) (nn : Byte) (s : State) : Result :=
  .next ((drawByte p s).2.setV x ((drawByte p s).1 &&& nn)).advance

/-- `Cxnn` RND Vx, nn: the drawn byte is the free value of log entry 1 (R160). -/
def execRnd (x : Reg) (nn : Byte) (s : State) : Result := randomMasked defaultParams x nn s

end Sys2Proof.Machine
end

