-- ==== Sys2Proof/Machine/TimersKeypad.lean ====
section
/-! DEFINITION. Keypad and timer instructions (44_timers_keypad.md). -/

namespace Sys2Proof.Machine

/-- A key skip on the key Vx numbers: a number above 15 faults (R240). `want` is the key state that skips. -/
def skipOnKey (want : Bool) (x : Reg) (s : State) : Result :=
  match keyNumber (s.getV x) with
  | none => raise (.outOfBounds (.keyIndex (s.getV x))) s
  | some k => .next (s.skipIf (s.keys.pressed k == want))

/-- `Ex9E` SKP Vx (R240). -/
def execSkp (x : Reg) (s : State) : Result := skipOnKey true x s

/-- `ExA1` SKNP Vx (R241). -/
def execSknp (x : Reg) (s : State) : Result := skipOnKey false x s

/-- `Fx07` LD Vx, DT (R245). -/
def execLdVxDT (x : Reg) (s : State) : Result := .next (s.setV x s.dt).advance

/-- `Fx0A` LD Vx, K with a given KEY_SELECT: a level test at this cycle (R242). -/
def waitKey (p : Params) (x : Reg) (s : State) : Result :=
  if s.keys.anyPressed then .next (s.takeKey p x) else .next { s with status := .awaitingKey x }

/-- `Fx0A` LD Vx, K with the default KEY_SELECT (R242). -/
def execLdVxK (x : Reg) (s : State) : Result := waitKey defaultParams x s

/-- `await_key_step(x)`: the whole of a cycle in status AwaitingKey(x) (R243). -/
def awaitKeyStep (p : Params) (x : Reg) (s : State) : State :=
  if s.keys.anyPressed then { (s.takeKey p x) with status := .running } else s

/-- `Fx15` LD DT, Vx (R246). -/
def execLdDTVx (x : Reg) (s : State) : Result := .next { s with dt := s.getV x }.advance

/-- `Fx18` LD ST, Vx (R247). -/
def execLdSTVx (x : Reg) (s : State) : Result := .next { s with st := s.getV x }.advance

end Sys2Proof.Machine
end

