-- ==== Sys2Proof/Machine/Cycle.lean ====
section
/-! DEFINITION. The run cycle (30_encoding.md R97): fetch, decode and execute one instruction, with the configuration
parameters as arguments (00_scope.md R7). Step.lean instantiates it at the defaults. -/

namespace Sys2Proof.Machine

/-- The instruction word at pc, big-endian (30_encoding.md R80). -/
def fetchWord (s : State) : Word := wordOfBytes (s.readByte s.pc.toNat) (s.readByte (s.pc.toNat + 1))

/-- The fetch is in range when pc ≤ 0xFFE (30_encoding.md R81). -/
def fetchInRange (s : State) : Bool := decide (s.pc.toNat ≤ 0xFFE)

/-- A cycle in status Running: the fetch bound, then the decode, then the instruction (30_encoding.md R97,
60_exceptions.md R275). `run` executes the decoded instruction. -/
def runningCycle (p : Params) (run : Instr → State → Result) (s : State) : Result :=
  if fetchInRange s then
    match decodeWith p.loadSubcode (fetchWord s) with
    | some i => run i s
    | none => raise (.unknownOpcode (fetchWord s)) s
  else raise (.outOfBounds (.fetch s.pc)) s

/-- One run-cycle operation (30_encoding.md R97). -/
def runCycle (p : Params) (run : Instr → State → Result) (s : State) : Result :=
  match s.status with
  | .halted _ => .next s
  | .awaitingKey x => .next (awaitKeyStep p x s)
  | .running => runningCycle p run s

/-- `exec` under given parameters. Only `Cxnn` (RANDOM), `Fx0A` (KEY_SELECT) and `Fx33` (BCD_MODE) depend on one; every
other instruction is `exec`'s. -/
def execWith (p : Params) (i : Instr) (s : State) : Result :=
  match i with
  | .rnd x nn => randomMasked p x nn s
  | .ldVxK x => waitKey p x s
  | .ldB x => storeDigits p x s
  | other => exec other s

/-- One run-cycle operation of a session with the parameters `p`. -/
def stepWith (p : Params) (s : State) : Result := runCycle p (execWith p) s

/-- What the driver is told after a cycle: a Halted core is a fault, never a successful end (60_exceptions.md R274).
DESIGN CHOICE (log entry 5). Safe. -/
def surface : Result → Result
  | .next t =>
    match t.status with
    | .halted r => .fault (.halted r)
    | _ => .next t
  | other => other

/-- Put a word where the next cycle fetches (20_memory.md R61): pc is set to PROG_BASE if it lies outside the fetch range,
and status to Running, since no other status fetches.
DESIGN CHOICE (log entry 8). Safe. -/
def placeWord (s : State) (w : Word) : State :=
  let pc := if fetchInRange s then s.pc else 0x200
  { s with pc := pc, status := .running, mem := s.mem.writeBytes pc.toNat [wordHigh w, wordLow w] }

end Sys2Proof.Machine
end

