-- ==== Sys2Proof/Machine/Step.lean ====
section
/-! DEFINITION. One step of the machine: one run-cycle operation at the default parameters (30_encoding.md R97). -/

namespace Sys2Proof.Machine

/-- One run-cycle operation. -/
def step (s : State) : Host.Outcome State Fault Refusal := runCycle defaultParams exec s

/-- `s` with a word stored where `step` fetches its next instruction, ready to be fetched. -/
def State.withFetchWord (s : State) (nbits w : Nat) : State := placeWord s (BitVec.ofNat 16 (w % 2 ^ nbits))

end Sys2Proof.Machine
end

