-- ==== Sys2Proof/Machine/HostOps.lean ====
section
/-! DEFINITION. The operations of the host, the only other agent (60_exceptions.md R282, R283). They run between cycles, each
atomic, in any order and in every status (R284). They are not part of `step` (log entry 9). -/

namespace Sys2Proof.Machine

/-- Why a load failed: a result of the operation, not a fault of the core (60_exceptions.md R271). -/
inductive LoadError where
  | capacity (len : Nat)
  deriving DecidableEq, Repr

/-- What a load answers. -/
inductive LoadResult where
  | ok (s : State)
  | error (e : LoadError)
  deriving DecidableEq, Repr

/-- `construct()` with a given FONT (70_reset_and_hazards.md R310). -/
def construct (p : Params) : State := State.reset.writeBytes 0 p.font.toList

/-- `load(b)` (70_reset_and_hazards.md R312). -/
def load (rom : List Byte) (s : State) : LoadResult :=
  if rom.length > romMax then .error (.capacity rom.length) else .ok (s.writeBytes progBase rom)

/-- `if T > 0 then T <- T - 1` (60_exceptions.md R280). -/
def countDown (t : Byte) : Byte := if t.toNat > 0 then t - 1 else t

/-- `tick()`: both timers, toward zero (60_exceptions.md R280). -/
def tick (s : State) : State := { s with dt := countDown s.dt, st := countDown s.st }

/-- `set_key(k, pressed)` (60_exceptions.md R285). -/
def setKey (k : Reg) (pressed : Bool) (s : State) : State := { s with keys := s.keys.set k.toNat pressed }

/-- `acknowledge_redraw()` (60_exceptions.md R287). -/
def acknowledgeRedraw (s : State) : State := { s with redraw := false }

/-- The pixel at index k is on (10_state.md R31). -/
def State.pixel (s : State) (k : Nat) : Bool := Pixels.lit s.fb k

/-- `read_framebuffer`: the 2048 pixel values in order (60_exceptions.md R283). -/
def State.framebuffer (s : State) : List Bool := (List.range numPixels).map s.pixel

/-- `read_sound`: `ST > 0` (10_state.md R34). -/
def State.soundOn (s : State) : Bool := decide (s.st.toNat > 0)

/-- Everything that changes the state in a session (60_exceptions.md R283, 70_reset_and_hazards.md R313). -/
inductive Event where
  | construct
  | load (rom : List Byte)
  | cycle
  | tick
  | setKey (k : Reg) (pressed : Bool)
  | acknowledge
  deriving DecidableEq, Repr

/-- One event of a session with the parameters `p`. A failed load leaves the state as it was (R271). Construction keeps the
model's own count of draws, so that a later session's random bytes stay free (log entry 1). -/
def applyEvent (p : Params) : Event → State → Result
  | .construct, s => .next { construct p with draws := s.draws }
  | .load rom, s =>
    match load rom s with
    | .ok t => .next t
    | .error _ => .next s
  | .cycle, s => stepWith p s
  | .tick, s => .next (tick s)
  | .setKey k pressed, s => .next (setKey k pressed s)
  | .acknowledge, s => .next (acknowledgeRedraw s)

/-- A session: the events in order, stopping where one gives no next state (70_reset_and_hazards.md R313). -/
def runEvents (p : Params) : List Event → State → Result
  | [], s => .next s
  | e :: es, s =>
    match applyEvent p e s with
    | .next t => runEvents p es t
    | .fault r => .fault r
    | .refused r => .refused r

end Sys2Proof.Machine
end

