-- ==== Sys2Proof/Safety.lean ====
section
/-! DEFINITION. The terms claims are stated in: the machine's invariant, what a safe run, a hang and a finished run are, and which parts
of the state one transition left unchanged. -/

namespace Sys2Proof.Machine

/-- The invariant of the core. Memory is in its canonical form; pc is at most 0x1100 and every stacked address at most 0xFFE
(10_state.md R25); a waiting core stands at a fetchable `Fx0A` (44_timers_keypad.md R242). SP ≤ 16 holds by SP's type
(10_state.md R28). -/
structure State.Inv (s : State) : Prop where
  mem_wf : s.mem.wf = true
  pc_le : s.pc.toNat ≤ 0x1100
  stack_le : ∀ k, (s.stackEntry k).toNat ≤ 0xFFE
  waiting_pc_le : ∀ x, s.status = .awaitingKey x → s.pc.toNat ≤ 0xFFE

/-- A Halted core has faulted; that is never a successful end of a run (60_exceptions.md R274). -/
def State.isHalted (s : State) : Prop := ∃ r, s.status = .halted r

/-- `n` run cycles with no host action between them (70_reset_and_hazards.md R315). -/
def cycles (p : Params) (n : Nat) (s : State) : Result := runEvents p (List.replicate n .cycle) s

/-- What a driver is told of a run: the events in order, the state surfaced after each of them and at the end. The first fault
ends the run, whatever host operations the run has; a Halted state is never its successful end, not even of a run of no events
(60_exceptions.md R274, 70_reset_and_hazards.md R315). A run goes on from a Halted state by construction alone. -/
def driveEvents (p : Params) : List Event → State → Result
  | [], s => surface (.next s)
  | e :: es, s =>
    match surface (applyEvent p e s) with
    | .next t => driveEvents p es t
    | .fault r => .fault r
    | .refused r => .refused r

/-- A safe session: the driver is told of no fault (60_exceptions.md R274, 70_reset_and_hazards.md R315). -/
def safeSession (p : Params) (es : List Event) (s : State) : Prop := ∃ t, driveEvents p es s = .next t

/-- What a driver is told of `n` run cycles with no host action between them. -/
def drive (p : Params) (n : Nat) (s : State) : Result := driveEvents p (List.replicate n .cycle) s

/-- A safe run of `n` cycles. -/
def safeRun (p : Params) (n : Nat) (s : State) : Prop := safeSession p (List.replicate n .cycle) s

/-- The next cycle fetches and executes `i`. -/
def State.executes (p : Params) (s : State) (i : Instr) : Prop :=
  s.status = .running ∧ fetchInRange s = true ∧ decodeWith p.loadSubcode (fetchWord s) = some i

/-- The first hang: a wait with no key pressed (60_exceptions.md R289). -/
def State.waitsForKey (s : State) : Prop := (∃ x, s.status = .awaitingKey x) ∧ s.keys.anyPressed = false

/-- The second hang: a `1nnn` to itself (60_exceptions.md R289, 40_control_flow.md R112). -/
def State.jumpsToItself (p : Params) (s : State) : Prop := ∃ nnn, s.executes p (.jp nnn) ∧ s.pc = zextAddr nnn

/-- The third hang: a `Fx07` polling loop with no ticks (60_exceptions.md R289): with no host action, so with no tick, the
run executes a `Fx07` again and again without end.
DEDUCED (log entry 14). Safe. -/
def State.pollsDelayTimer (p : Params) (s : State) : Prop :=
  ∀ n, ∃ m ≥ n, ∃ t x, cycles p m s = .next t ∧ t.executes p (.ldVxDT x)

/-- A hang: one of the three situations that never end without a host action (60_exceptions.md R289). -/
def State.isHung (p : Params) (s : State) : Prop := s.waitsForKey ∨ s.jumpsToItself p ∨ s.pollsDelayTimer p

/-- A finished session: it ends in neither a fault nor a hang (60_exceptions.md R274, R289). -/
def finishedSession (p : Params) (es : List Event) (s : State) : Prop :=
  ∃ t, driveEvents p es s = .next t ∧ ¬ t.isHung p

/-- A finished run of `n` cycles with no host action between them. -/
def finishedRun (p : Params) (n : Nat) (s : State) : Prop := finishedSession p (List.replicate n .cycle) s

/-- The parts of the state (10_state.md R20), and the model's own counter of draws. -/
inductive Part where
  | mem | v | i | pc | stack | sp | dt | st | keys | fb | redraw | status | draws
  deriving DecidableEq, Repr

/-- A part holds in `t` what it held in `s`; memory, registers and stack are compared by reading them. -/
def Part.same (s t : State) : Part → Prop
  | .mem => ∀ a, t.readByte a = s.readByte a
  | .v => ∀ x, t.getV x = s.getV x
  | .i => t.i = s.i
  | .pc => t.pc = s.pc
  | .stack => ∀ k, t.stackEntry k = s.stackEntry k
  | .sp => t.sp = s.sp
  | .dt => t.dt = s.dt
  | .st => t.st = s.st
  | .keys => t.keys = s.keys
  | .fb => t.fb = s.fb
  | .redraw => t.redraw = s.redraw
  | .status => t.status = s.status
  | .draws => t.draws = s.draws

/-- Every part but the named ones is unchanged from `s` to `t`. -/
def OnlyChanges (parts : List Part) (s t : State) : Prop := ∀ p, p ∉ parts → p.same s t

end Sys2Proof.Machine
end

