-- ==== Sys2Proof/Certificates/Slice0/Obligations.lean ====
section
/-! DEFINITION. The statements for the provers. Each `Obligations.<Name>` formalises the rules its docstring cites. A
result statement concludes that `exec` answers a next state, gives what the rule writes, and says that every other part of
the state is unchanged (`OnlyChanges`); memory is compared byte by byte. -/

open Sys2Proof Sys2Proof.Machine

namespace Sys2Proof.Claims

/-- Executing `i` writes the byte `val` to Vx, advances pc by 2 and changes nothing else. -/
def WritesReg (i : Instr) (x : Reg) (val : State → Byte) : Prop :=
  ∀ s, ∃ t, exec i s = .next t ∧ t.getV x = val s ∧ (∀ r, r ≠ x → t.getV r = s.getV r) ∧ t.pc = s.pc + 2 ∧
    OnlyChanges [.v, .pc] s t

/-- Executing `i` writes `val` to Vx and, unless x = F, `flag` to VF, advances pc by 2 and changes nothing else. -/
def WritesFlagAndReg (i : Instr) (x : Reg) (flag val : State → Byte) : Prop :=
  ∀ s, ∃ t, exec i s = .next t ∧ t.getV x = val s ∧ (x ≠ 0xF → t.getV 0xF = flag s) ∧
    (∀ r, r ≠ x → r ≠ 0xF → t.getV r = s.getV r) ∧ t.pc = s.pc + 2 ∧ OnlyChanges [.v, .pc] s t

/-- Executing `i` advances pc by 4 when `c` holds and by 2 otherwise, and changes nothing else. -/
def Skips (i : Instr) (c : State → Prop) : Prop :=
  ∀ s, ∃ t, exec i s = .next t ∧ (c s → t.pc = s.pc + 4) ∧ (¬ c s → t.pc = s.pc + 2) ∧ OnlyChanges [.pc] s t

/-- `t` is `s` halted with the reason `r`: pc and every other part are as before. -/
def HaltedAs (r : HaltReason) (s t : State) : Prop := t.status = .halted r ∧ OnlyChanges [.status] s t

/-- A sprite of `n` rows at I, drawn at column Vx and row Vy, has a set bit on the flat index `k` (43_display.md R211,
R213; the bit order is log entry 4's). -/
def SpriteCovers (s : State) (x y : Reg) (n : Nibble) (k : Nat) : Prop :=
  ∃ r < n.toNat, ∃ c < 8, (s.readByte (s.i.toNat + r)).getLsbD (7 - c) = true ∧
    ((s.getV y).toNat + r) * 64 + ((s.getV x).toNat + c) = k

/-- The instructions that may write VF, as a flag or as their destination (10_state.md R22). -/
def mayWriteVF : Instr → Bool
  | .addReg _ _ | .subReg _ _ | .shr _ _ | .subnReg _ _ | .shl _ _ | .drw _ _ _ => true
  | .ldImm x _ | .addImm x _ | .ldReg x _ | .orReg x _ | .andReg x _ | .xorReg x _ | .rnd x _ => x == 0xF
  | .ldVxDT x | .ldVxK x | .ldVxMem x => x == 0xF
  | _ => false

/-- The parts of the state an instruction may change when it does not fault, pc aside (10_state.md R22, R26 to R33). -/
def mayChange : Instr → List Part
  | .cls => [.fb, .redraw]
  | .ret => [.sp]
  | .call _ => [.stack, .sp]
  | .jp _ | .jpV0 _ => []
  | .seImm _ _ | .sneImm _ _ | .seReg _ _ | .sneReg _ _ | .skp _ | .sknp _ => []
  | .ldImm _ _ | .addImm _ _ | .ldReg _ _ | .orReg _ _ | .andReg _ _ | .xorReg _ _ => [.v]
  | .addReg _ _ | .subReg _ _ | .shr _ _ | .subnReg _ _ | .shl _ _ => [.v]
  | .ldI _ | .addI _ | .ldF _ => [.i]
  | .rnd _ _ => [.v, .draws]
  | .drw _ _ _ => [.v, .fb, .redraw]
  | .ldVxDT _ | .ldVxMem _ => [.v]
  | .ldVxK _ => [.v, .status]
  | .ldDTVx _ => [.dt]
  | .ldSTVx _ => [.st]
  | .ldB _ | .ldMemVx _ => [.mem]

/-- The fault an instruction raises in a state, by the table of 60_exceptions.md R270 (codes 3 to 7). -/
def faultOf (s : State) : Instr → Option OutOfBounds
  | .drw _ _ n => if 1 ≤ n.toNat ∧ s.i.toNat + n.toNat > 4096 then some (.memory s.i n.toNat) else none
  | .ldB _ => if s.i.toNat + 3 > 4096 then some (.memory s.i 3) else none
  | .ldMemVx x | .ldVxMem x =>
    if s.i.toNat + (x.toNat + 1) > 4096 then some (.memory s.i (x.toNat + 1)) else none
  | .call _ => if s.sp.val = 16 then some .stackOverflow else none
  | .ret => if s.sp.val = 0 then some .stackUnderflow else none
  | .skp x | .sknp x => if (s.getV x).toNat > 15 then some (.keyIndex (s.getV x)) else none
  | .addI x =>
    if s.i.toNat + (s.getV x).toNat > 0xFFFF then some (.indexOverflow (s.i.toNat + (s.getV x).toNat)) else none
  | _ => none

/-- The fault a cycle of a Running core raises, in the order of 60_exceptions.md R275. -/
def cycleFault (p : Params) (s : State) : Option HaltReason :=
  if s.pc.toNat > 0xFFE then some (.outOfBounds (.fetch s.pc))
  else match decodeWith p.loadSubcode (fetchWord s) with
    | none => some (.unknownOpcode (fetchWord s))
    | some i => (faultOf s i).map .outOfBounds

end Sys2Proof.Claims

open Sys2Proof.Claims

/-! ### Encoding -/

/-- Words written out from 30_encoding.md R91 and 95_test_vectors.md decode to what they stand for, or are unknown.
The words 00E1, 5121, 912F and E19F are unknown by the spec's own decision D4 (R87, R88); F265 decodes and F064 does not at
the default LOAD_SUBCODE, 0x65 (decision D5, log entry 2). -/
def Obligations.SpecWordsDecode : Prop :=
  decode 0x00E0 = some .cls ∧ decode 0x00EE = some .ret ∧ decode 0x1234 = some (.jp 0x234) ∧
  decode 0x3342 = some (.seImm 3 0x42) ∧ decode 0x8196 = some (.shr 1 9) ∧ decode 0x8127 = some (.subnReg 1 2) ∧
  decode 0xA2F0 = some (.ldI 0x2F0) ∧ decode 0xC30F = some (.rnd 3 0x0F) ∧ decode 0xD12F = some (.drw 1 2 0xF) ∧
  decode 0xE5A1 = some (.sknp 5) ∧ decode 0xF30A = some (.ldVxK 3) ∧ decode 0xF265 = some (.ldVxMem 2) ∧
  decode 0x0000 = none ∧ decode 0x00E1 = none ∧ decode 0x5121 = none ∧ decode 0x912F = none ∧
  decode 0x8008 = none ∧ decode 0x812D = none ∧ decode 0xE19F = none ∧ decode 0xF064 = none

/-- Decoding the word of any instruction gives it back, every operand at every value, under either LOAD_SUBCODE
(30_encoding.md R82 to R84, R89, R91). -/
def Obligations.DecodeEncodeRoundTrip : Prop := ∀ (sub : LoadSubcode) (i : Instr), decodeWith sub (encodeWith sub i) = some i

/-- The word of a decoded instruction is the word it was decoded from: decoding drops no bit (30_encoding.md R93, R94). -/
def Obligations.EncodeDecodeRoundTrip : Prop :=
  ∀ (sub : LoadSubcode) (w : Word) (i : Instr), decodeWith sub w = some i → encodeWith sub i = w

/-- A word selects an instruction exactly when `(word AND mask) = match` for that instruction's row; at most one row
matches; a word no row matches is an unknown opcode (30_encoding.md R86; that every fixed nibble of a pattern must match is
the spec's own decision D4). -/
def Obligations.DecoderFollowsOpcodeMap : Prop :=
  ∀ (sub : LoadSubcode) (w : Word),
    (∀ row ∈ opcodeMap sub, (w &&& row.mask = row.value ↔ ∃ i, decodeWith sub w = some i ∧ i.rowNumber = row.number)) ∧
    (∀ row ∈ opcodeMap sub, ∀ row' ∈ opcodeMap sub, w &&& row.mask = row.value → w &&& row'.mask = row'.value → row = row') ∧
    ((∀ row ∈ opcodeMap sub, w &&& row.mask ≠ row.value) → decodeWith sub w = none)

/-- LOAD_SUBCODE selects the block load's word, the other word is unknown, and nothing else in the decoder depends on it
(30_encoding.md R89; the parameter is decision D5, its default log entry 2's). -/
def Obligations.LoadSubcodeSelectsBlockLoad : Prop :=
  (∀ x : Reg, decodeWith .x65 (encodeXB 0xF x 0x65) = some (.ldVxMem x) ∧ decodeWith .x65 (encodeXB 0xF x 0x64) = none ∧
    decodeWith .x64 (encodeXB 0xF x 0x64) = some (.ldVxMem x) ∧ decodeWith .x64 (encodeXB 0xF x 0x65) = none) ∧
  (∀ w : Word, (∀ x : Reg, w ≠ encodeXB 0xF x 0x65 ∧ w ≠ encodeXB 0xF x 0x64) → decodeWith .x65 w = decodeWith .x64 w) ∧
  defaultParams.loadSubcode = .x65

/-! ### The cycle -/

/-- When the bytes at pc, the first the more significant, decode to `i`, one step of a Running core is `exec i`
(30_encoding.md R80, R97), at the default parameters (log entry 2). -/
def Obligations.StepRunsDecodedInstruction : Prop :=
  ∀ (s : State) (i : Instr), s.status = .running → s.pc.toNat ≤ 0xFFE →
    decode (s.readByte s.pc.toNat ++ s.readByte (s.pc.toNat + 1)) = some i → step s = exec i s

/-- A word placed for the fetch is what the next step runs, whatever the state was (`State.withFetchWord`). -/
def Obligations.PlacedWordIsExecuted : Prop :=
  ∀ (s : State) (w : Word) (i : Instr), decode w = some i →
    step (s.withFetchWord 16 w.toNat) = exec i (s.withFetchWord 16 w.toNat)

/-- Stepping with the default parameters is `step` (00_scope.md R7). -/
def Obligations.DefaultParametersGiveStep : Prop := ∀ s : State, stepWith defaultParams s = step s

/-- A Running core whose fetched word no row of the opcode map selects halts with UnknownOpcode(word), and pc keeps the
address of the unknown word (30_encoding.md R92). -/
def Obligations.UnknownOpcodeHalts : Prop :=
  ∀ (p : Params) (s : State), s.status = .running → s.pc.toNat ≤ 0xFFE →
    (∀ row ∈ opcodeMap p.loadSubcode, fetchWord s &&& row.mask ≠ row.value) →
    ∃ t, stepWith p s = .next t ∧ HaltedAs (.unknownOpcode (fetchWord s)) s t

/-- A Running core with pc above 0xFFE halts with OutOfBounds(Fetch(pc)), before it decodes anything: whatever the bytes
there (30_encoding.md R81). -/
def Obligations.FetchBeyondMemoryHalts : Prop :=
  ∀ (p : Params) (s : State), s.status = .running →
    (s.pc.toNat > 0xFFE → ∃ t, stepWith p s = .next t ∧ HaltedAs (.outOfBounds (.fetch s.pc)) s t) ∧
    (s.pc.toNat ≤ 0xFFE → ∀ t, stepWith p s = .next t → ∀ a, t.status ≠ .halted (.outOfBounds (.fetch a)))

/-- A cycle of a Halted core changes nothing and is surfaced as a fault, so is a run of any number of cycles, zero included,
construction makes the core Running, and no other event leaves Halted (60_exceptions.md R274; what the host's operations do
then is the spec's own decision D21). -/
def Obligations.HaltedIsTerminal : Prop :=
  ∀ (p : Params) (s : State) (r : HaltReason), s.status = .halted r →
    stepWith p s = .next s ∧ surface (stepWith p s) = .fault (.halted r) ∧
    (∀ n, drive p n s = .fault (.halted r) ∧ ¬ safeRun p n s) ∧
    (∀ e, e ≠ .construct → ∃ t, applyEvent p e s = .next t ∧ t.status = .halted r) ∧
    (∃ t, applyEvent p .construct s = .next t ∧ t.status = .running)

/-- A cycle of a waiting core: with no key pressed nothing changes; with a key pressed KEY_SELECT's key is stored, pc
advances and the core runs (44_timers_keypad.md R243; the level test without a re-fetch is the spec's own decision D8, log
entry 13). -/
def Obligations.WaitingCycleRechecksKeypad : Prop :=
  ∀ (p : Params) (s : State) (x : Reg), s.status = .awaitingKey x →
    ((∀ k, s.keys.pressed k = false) → stepWith p s = .next s) ∧
    ((∃ k, s.keys.pressed k = true) → ∃ t, stepWith p s = .next t ∧ t.getV x = (p.keySelect s.keys).setWidth 8 ∧
      s.keys.pressed (p.keySelect s.keys) = true ∧ (∀ r, r ≠ x → t.getV r = s.getV r) ∧ t.pc = s.pc + 2 ∧
      t.status = .running ∧ OnlyChanges [.v, .pc, .status] s t)

/-- Every cycle of every state answers a next state: no cycle ends in a fault of the machine or a refusal (30_encoding.md
R93, R97; 60_exceptions.md R273). -/
def Obligations.EveryCycleAnswersNextState : Prop := ∀ (p : Params) (s : State), ∃ t, stepWith p s = .next t

/-- Faults are precise: a cycle that ends Halted changed nothing but status (60_exceptions.md R273, the spec's own decision
D15). -/
def Obligations.FaultsArePrecise : Prop :=
  ∀ (p : Params) (s t : State) (r : HaltReason), stepWith p s = .next t → t.status = .halted r →
    t = { s with status := .halted r }

/-- A cycle of a Running core halts exactly in the cases of the fault table, checked in the spec's order, and for the
reason the table gives, under any parameters (60_exceptions.md R270, R275). The spec's own decisions in it: the range of an
access is checked first (D15), the IndexOverflow fault (D16), the KeyIndex fault (D17), no fault of `Dxyn` with n = 0 (D13,
log entry 13), and a target outside memory faulting at the fetch and not at the jump (D32). -/
def Obligations.CycleFaultsExactlyAsTabled : Prop :=
  ∀ (p : Params) (s : State) (r : HaltReason), s.status = .running →
    ((∃ t, stepWith p s = .next t ∧ t.status = .halted r) ↔ cycleFault p s = some r)

/-- A session, host operations included, whose last state is Halted is told to the driver as a fault and is neither safe nor
finished; without a construction in it the driver is told exactly what its last state is: the fault, or the state reached
(70_reset_and_hazards.md R315, 60_exceptions.md R274; the end of a run is the spec's own decision D34, the host's operations
while Halted D21). -/
def Obligations.HaltedIsNoSuccessfulEnd : Prop :=
  ∀ (p : Params) (es : List Event) (s t : State), runEvents p es s = .next t →
    (∀ r, t.status = .halted r → (∃ r', driveEvents p es s = .fault (.halted r')) ∧ ¬ safeSession p es s ∧
      ¬ finishedSession p es s) ∧
    (.construct ∉ es → driveEvents p es s = surface (.next t))

/-- The three situations of the rule are hangs: a wait with no key pressed and a `1nnn` to itself, whose cycle changes
nothing, and a loop of cycles alone that comes back to the same state and executes a `Fx07` on its way (60_exceptions.md
R289; what counts as a polling loop is log entry 14's). -/
def Obligations.WaitsAndLoopsAreHangs : Prop :=
  ∀ (p : Params) (s : State),
    (∀ x, s.status = .awaitingKey x → (∀ k, s.keys.pressed k = false) → stepWith p s = .next s ∧ s.isHung p) ∧
    (∀ nnn : Addr, s.executes p (.jp nnn) → s.pc.toNat = nnn.toNat → stepWith p s = .next s ∧ s.isHung p) ∧
    (∀ m n t x, m < n → cycles p m s = .next t → t.executes p (.ldVxDT x) → cycles p n s = .next s → s.isHung p)

/-- A hang never ends without a host action: however many cycles run, no fault is surfaced, and the run is not a finished
one (60_exceptions.md R289; what counts as a polling loop is log entry 14's). -/
def Obligations.HangsNeverFinish : Prop :=
  ∀ (p : Params) (s : State), s.isHung p → ∀ n, safeRun p n s ∧ ¬ finishedRun p n s

/-! ### Invariants and frames of the whole machine -/

/-- The machine right after construction meets the invariant. -/
def Obligations.ResetMeetsInvariant : Prop := State.reset.Inv

/-- Every step keeps the invariant: canonical memory, pc ≤ 0x1100, stacked addresses ≤ 0xFFE (10_state.md R25, R28). -/
def Obligations.StepKeepsInvariant : Prop := ∀ s t : State, s.Inv → step s = .next t → t.Inv

/-- Every session keeps the invariant, whatever the parameters, the order of cycles and host operations, and the bytes
loaded (10_state.md R25; 60_exceptions.md R284). -/
def Obligations.SessionKeepsInvariant : Prop :=
  ∀ (p : Params) (es : List Event) (s t : State), s.Inv → runEvents p es s = .next t → t.Inv

/-- The canonical form is one per contents: canonical memories that read alike are equal data. -/
def Obligations.CanonicalMemoryIsUnique : Prop :=
  ∀ m m' : Memory, m.wf = true → m'.wf = true → (∀ a, m.read a = m'.read a) → m = m'

/-- Every instruction leaves VF unchanged but those the spec lists as its writers (10_state.md R22; that the logic
instructions and `Fx1E` are no writers is the spec's own decision D31, log entry 13). -/
def Obligations.OnlyListedInstructionsWriteVF : Prop :=
  ∀ (i : Instr) (s t : State), exec i s = .next t → mayWriteVF i = false → t.getV 0xF = s.getV 0xF

/-- An instruction that does not fault changes only the parts the spec says it writes, and pc (10_state.md R26 to R33). -/
def Obligations.InstructionsChangeOnlyTheirParts : Prop :=
  ∀ (i : Instr) (s t : State), s.status = .running → exec i s = .next t → ¬ t.isHalted → OnlyChanges (.pc :: mayChange i) s t

/-- No cycle changes a key; the timers change in a cycle only by `Fx15` and `Fx18`, each its own (10_state.md R29, R30). -/
def Obligations.CyclesLeaveKeysAndTimers : Prop :=
  ∀ (p : Params) (s t : State), stepWith p s = .next t → t.keys = s.keys ∧
    (t.dt ≠ s.dt → ∃ x, decodeWith p.loadSubcode (fetchWord s) = some (.ldDTVx x) ∧ t.dt = s.getV x) ∧
    (t.st ≠ s.st → ∃ x, decodeWith p.loadSubcode (fetchWord s) = some (.ldSTVx x) ∧ t.st = s.getV x)

/-- A cycle never clears redraw, and a cycle that changes the framebuffer leaves it set; only `00E0` and `Dxyn` set it
(10_state.md R31, R32). -/
def Obligations.RedrawFollowsDrawing : Prop :=
  ∀ (p : Params) (s t : State), stepWith p s = .next t →
    (s.redraw = true → t.redraw = true) ∧ (t.fb ≠ s.fb → t.redraw = true) ∧
    (t.redraw ≠ s.redraw → decodeWith p.loadSubcode (fetchWord s) = some .cls ∨
      ∃ x y n, decodeWith p.loadSubcode (fetchWord s) = some (.drw x y n))

/-! ### Reset and the host's operations -/

/-- Construction sets every element to its reset value: FONT at 0x000..0x04F, zero elsewhere, pc = 0x200, Running
(70_reset_and_hazards.md R310, 10_state.md R38; reading a zeroed status as Running and a zeroed key as released is the
spec's own decision D33). -/
def Obligations.ConstructionGivesResetValues : Prop :=
  ∀ p : Params,
    (∀ a : Fin 80, (construct p).readByte a.val = p.font[a.val]) ∧ (∀ a, 80 ≤ a → (construct p).readByte a = 0) ∧
    (∀ x, (construct p).getV x = 0) ∧ (construct p).i = 0 ∧ (construct p).pc = 0x200 ∧
    (∀ k, (construct p).stackEntry k = 0) ∧ (construct p).sp.val = 0 ∧ (construct p).dt = 0 ∧ (construct p).st = 0 ∧
    (∀ k, (construct p).keys.pressed k = false) ∧ (∀ k, (construct p).pixel k = false) ∧
    (construct p).redraw = false ∧ (construct p).status = .running

/-- `State.reset` is construction with the default FONT, which is log entry 3's (10_state.md R38, 20_memory.md R64). -/
def Obligations.ResetIsDefaultConstruction : Prop := construct defaultParams = State.reset

/-- A ROM of at most 3584 bytes lands at 0x200 and nothing else changes; a longer one fails with Capacity and changes
nothing (70_reset_and_hazards.md R312; that it does so in any status is the spec's own decision D22). -/
def Obligations.LoadPlacesRomOrFails : Prop :=
  ∀ (p : Params) (rom : List Byte) (s : State),
    (rom.length ≤ 3584 → ∃ t, load rom s = .ok t ∧ applyEvent p (.load rom) s = .next t ∧
      (∀ k (h : k < rom.length), t.readByte (0x200 + k) = rom[k]) ∧
      (∀ a, a < 0x200 ∨ 0x200 + rom.length ≤ a → t.readByte a = s.readByte a) ∧ OnlyChanges [.mem] s t) ∧
    (rom.length > 3584 → load rom s = .error (.capacity rom.length) ∧ applyEvent p (.load rom) s = .next s)

/-- A tick takes one from each timer, stopping at zero, and does nothing else (60_exceptions.md R280); that it does so in
every status is the spec's own decision D20 (R281). -/
def Obligations.TickCountsBothTimersDown : Prop :=
  ∀ s : State, (tick s).dt.toNat = s.dt.toNat - 1 ∧ (tick s).st.toNat = s.st.toNat - 1 ∧ OnlyChanges [.dt, .st] s (tick s)

/-- `set_key` writes its key and no other and nothing else; acknowledging clears redraw and nothing else (60_exceptions.md
R285, R287). -/
def Obligations.SetKeyAndAcknowledgeWriteOnePart : Prop :=
  (∀ (s : State) (k : Reg) (b : Bool), (setKey k b s).keys.pressed k = b ∧
    (∀ j, j ≠ k → (setKey k b s).keys.pressed j = s.keys.pressed j) ∧ OnlyChanges [.keys] s (setKey k b s)) ∧
  (∀ s : State, (acknowledgeRedraw s).redraw = false ∧ OnlyChanges [.redraw] s (acknowledgeRedraw s))

/-! ### Control flow -/

/-- `3xnn`, `4xnn`, `5xy0`, `9xy0`: pc + 4 when taken, pc + 2 otherwise (40_control_flow.md R110, R114 to R117). -/
def Obligations.SkipsCompareRegisters : Prop :=
  (∀ x nn, Skips (.seImm x nn) (fun s => s.getV x = nn)) ∧ (∀ x nn, Skips (.sneImm x nn) (fun s => s.getV x ≠ nn)) ∧
  (∀ x y, Skips (.seReg x y) (fun s => s.getV x = s.getV y)) ∧ (∀ x y, Skips (.sneReg x y) (fun s => s.getV x ≠ s.getV y))

/-- `1nnn` and `Bnnn` set pc to nnn, and to nnn + V0 + 2 exactly, and change nothing else (40_control_flow.md R112,
R118; that a target outside memory is no fault of the jump is the spec's own decision D32). -/
def Obligations.JumpsSetPc : Prop :=
  (∀ (nnn : Addr) (s : State), ∃ t, exec (.jp nnn) s = .next t ∧ t.pc.toNat = nnn.toNat ∧ OnlyChanges [.pc] s t) ∧
  (∀ (nnn : Addr) (s : State), ∃ t, exec (.jpV0 nnn) s = .next t ∧
    t.pc.toNat = nnn.toNat + (s.getV 0).toNat + 2 ∧ OnlyChanges [.pc] s t)

/-- `2nnn` with SP < 16 pushes its own address and jumps; with SP = 16 it halts with StackOverflow (40_control_flow.md
R113). -/
def Obligations.CallPushesItsAddress : Prop :=
  ∀ (nnn : Addr) (s : State),
    (s.sp.val < 16 → ∃ t, exec (.call nnn) s = .next t ∧ t.stackEntry s.sp.val = s.pc ∧
      (∀ k, k ≠ s.sp.val → t.stackEntry k = s.stackEntry k) ∧ t.sp.val = s.sp.val + 1 ∧ t.pc.toNat = nnn.toNat ∧
      OnlyChanges [.stack, .sp, .pc] s t) ∧
    (s.sp.val = 16 → ∃ t, exec (.call nnn) s = .next t ∧ HaltedAs (.outOfBounds .stackOverflow) s t)

/-- `00EE` with SP > 0 pops and goes to the popped address + 2, leaving the entry's value; with SP = 0 it halts with
StackUnderflow (40_control_flow.md R111, 10_state.md R27). That a pop leaves the entry's value is the spec's own decision D23,
that a return to an address above 0xFFE is no fault of the return D32. -/
def Obligations.ReturnPopsAndAddsTwo : Prop :=
  ∀ s : State,
    (0 < s.sp.val → ∃ t, exec .ret s = .next t ∧ t.sp.val = s.sp.val - 1 ∧ t.pc = s.stackEntry (s.sp.val - 1) + 2 ∧
      OnlyChanges [.sp, .pc] s t) ∧
    (s.sp.val = 0 → ∃ t, exec .ret s = .next t ∧ HaltedAs (.outOfBounds .stackUnderflow) s t)

/-- `2nnn` then `00EE` ends after the CALL with the depth it began with (40_control_flow.md R111, R113;
95_test_vectors.md S4). -/
def Obligations.CallThenReturnResumes : Prop :=
  ∀ (nnn : Addr) (s : State), s.sp.val < 16 → ∃ t u, exec (.call nnn) s = .next t ∧ exec .ret t = .next u ∧
    u.pc = s.pc + 2 ∧ u.sp = s.sp ∧ OnlyChanges [.stack, .pc] s u

/-! ### Registers and arithmetic -/

/-- `6xnn`, `8xy0`: the immediate, and Vy, go to Vx (41_register_alu.md R141, R143). -/
def Obligations.LoadsWriteRegister : Prop :=
  (∀ x nn, WritesReg (.ldImm x nn) x (fun _ => nn)) ∧ (∀ x y, WritesReg (.ldReg x y) x (fun s => s.getV y))

/-- `7xnn` adds modulo 256 and writes no flag (41_register_alu.md R142, 10_state.md R23). -/
def Obligations.AddImmediateWraps : Prop :=
  ∀ x nn, WritesReg (.addImm x nn) x (fun s => BitVec.ofNat 8 (((s.getV x).toNat + nn.toNat) % 256))

/-- `8xy1`, `8xy2`, `8xy3`: bit by bit OR, AND and XOR into Vx (41_register_alu.md R144 to R146; that VF is not reset is the
spec's own decision D31, log entry 13). -/
def Obligations.LogicIsBitwise : Prop :=
  ∀ (x y : Reg) (s : State), ∃ t u w, exec (.orReg x y) s = .next t ∧ exec (.andReg x y) s = .next u ∧
    exec (.xorReg x y) s = .next w ∧
    (∀ k, (t.getV x).getLsbD k = ((s.getV x).getLsbD k || (s.getV y).getLsbD k)) ∧
    (∀ k, (u.getV x).getLsbD k = ((s.getV x).getLsbD k && (s.getV y).getLsbD k)) ∧
    (∀ k, (w.getV x).getLsbD k = ((s.getV x).getLsbD k ^^ (s.getV y).getLsbD k)) ∧
    (∀ r, r ≠ x → t.getV r = s.getV r ∧ u.getV r = s.getV r ∧ w.getV r = s.getV r) ∧
    t.pc = s.pc + 2 ∧ u.pc = s.pc + 2 ∧ w.pc = s.pc + 2 ∧
    OnlyChanges [.v, .pc] s t ∧ OnlyChanges [.v, .pc] s u ∧ OnlyChanges [.v, .pc] s w

/-- `8xy4`: the sum modulo 256, carry in VF (41_register_alu.md R147); that with x or y = F the operands are read first and
the result stands is the spec's own decision D9, log entry 13. -/
def Obligations.AddSetsCarry : Prop :=
  ∀ x y, WritesFlagAndReg (.addReg x y) x
    (fun s => if (s.getV x).toNat + (s.getV y).toNat > 255 then 1 else 0)
    (fun s => BitVec.ofNat 8 (((s.getV x).toNat + (s.getV y).toNat) % 256))

/-- `8xy5` and `8xy7`: the difference modulo 256, strict no-borrow in VF (41_register_alu.md R148, R150); that with x or
y = F the operands are read first and the result stands is the spec's own decision D9, log entry 13. -/
def Obligations.SubtractionsSetNoBorrow : Prop :=
  (∀ x y, WritesFlagAndReg (.subReg x y) x
    (fun s => if (s.getV x).toNat > (s.getV y).toNat then 1 else 0)
    (fun s => BitVec.ofInt 8 (((s.getV x).toNat - (s.getV y).toNat : Int) % 256))) ∧
  (∀ x y, WritesFlagAndReg (.subnReg x y) x
    (fun s => if (s.getV y).toNat > (s.getV x).toNat then 1 else 0)
    (fun s => BitVec.ofInt 8 (((s.getV y).toNat - (s.getV x).toNat : Int) % 256)))

/-- `8xy6` and `8xyE`: Vx shifted by one, the bit shifted out in VF, whatever y is (41_register_alu.md R149, R151;
30_encoding.md R94); that with x = F the result stands is the spec's own decision D9, log entry 13. -/
def Obligations.ShiftsMoveOneBitOut : Prop :=
  (∀ x y, WritesFlagAndReg (.shr x y) x
    (fun s => BitVec.ofNat 8 ((s.getV x).toNat % 2)) (fun s => BitVec.ofNat 8 ((s.getV x).toNat / 2))) ∧
  (∀ x y, WritesFlagAndReg (.shl x y) x
    (fun s => BitVec.ofNat 8 ((s.getV x).toNat / 128)) (fun s => BitVec.ofNat 8 ((s.getV x).toNat * 2 % 256))) ∧
  (∀ x y y' s, exec (.shr x y) s = exec (.shr x y') s ∧ exec (.shl x y) s = exec (.shl x y') s)

/-- `Cxnn` makes one draw and writes the drawn byte AND nn, for every random source; the machine's own bytes are the free
value of log entry 1 (41_register_alu.md R160). -/
def Obligations.RandomByteIsMasked : Prop :=
  ∀ (x : Reg) (nn : Byte) (s : State),
    (∃ t, exec (.rnd x nn) s = .next t ∧ t.getV x = Config.randomByte s.draws &&& nn ∧
      (∀ r, r ≠ x → t.getV r = s.getV r) ∧ t.draws = s.draws + 1 ∧ t.pc = s.pc + 2 ∧ OnlyChanges [.v, .pc, .draws] s t) ∧
    (∀ p : Params, ∃ t, execWith p (.rnd x nn) s = .next t ∧ t.getV x = p.random s.draws &&& nn ∧
      (∀ r, r ≠ x → t.getV r = s.getV r) ∧ t.draws = s.draws + 1 ∧ t.pc = s.pc + 2 ∧ OnlyChanges [.v, .pc, .draws] s t)

/-! ### Index and memory -/

/-- `Annn` sets I to nnn (42_index_memory.md R180). -/
def Obligations.IndexIsLoaded : Prop :=
  ∀ (nnn : Addr) (s : State), ∃ t, exec (.ldI nnn) s = .next t ∧ t.i.toNat = nnn.toNat ∧ t.pc = s.pc + 2 ∧
    OnlyChanges [.i, .pc] s t

/-- `Fx29` sets I to Vx * 5 (42_index_memory.md R182); that Vx is not masked to 4 bits is the spec's own decision D18, log
entry 13. -/
def Obligations.GlyphAddressIsUnmasked : Prop :=
  ∀ (x : Reg) (s : State), ∃ t, exec (.ldF x) s = .next t ∧ t.i.toNat = (s.getV x).toNat * 5 ∧ t.pc = s.pc + 2 ∧
    OnlyChanges [.i, .pc] s t

/-- `Fx1E`: the exact sum when it fits in 16 bits, VF unchanged; else it halts with IndexOverflow (42_index_memory.md
R181; the fault is the spec's own decision D16, the unchanged VF D31). -/
def Obligations.IndexAddIsExactOrHalts : Prop :=
  ∀ (x : Reg) (s : State),
    (s.i.toNat + (s.getV x).toNat ≤ 0xFFFF → ∃ t, exec (.addI x) s = .next t ∧
      t.i.toNat = s.i.toNat + (s.getV x).toNat ∧ t.pc = s.pc + 2 ∧ OnlyChanges [.i, .pc] s t) ∧
    (s.i.toNat + (s.getV x).toNat > 0xFFFF → ∃ t, exec (.addI x) s = .next t ∧
      HaltedAs (.outOfBounds (.indexOverflow (s.i.toNat + (s.getV x).toNat))) s t)

/-- `Fx33` stores the hundreds, the tens and, in BCD_MODE `standard`, the ones digit, in `reference` the hundreds digit
again; out of range it halts and stores nothing (42_index_memory.md R183, for either BCD_MODE, decision D6; that the first two
digits are the same in both is the spec's own assumption, D6). -/
def Obligations.DecimalDigitsAreStored : Prop :=
  ∀ (p : Params) (x : Reg) (s : State),
    (s.i.toNat + 3 ≤ 4096 → ∃ t, execWith p (.ldB x) s = .next t ∧
      (t.readByte s.i.toNat).toNat = (s.getV x).toNat / 100 ∧
      (t.readByte (s.i.toNat + 1)).toNat = (s.getV x).toNat / 10 % 10 ∧
      (p.bcdMode = .standard → (t.readByte (s.i.toNat + 2)).toNat = (s.getV x).toNat % 10) ∧
      (p.bcdMode = .reference → (t.readByte (s.i.toNat + 2)).toNat = (s.getV x).toNat / 100 % 10) ∧
      (∀ a, a < s.i.toNat ∨ s.i.toNat + 3 ≤ a → t.readByte a = s.readByte a) ∧ t.pc = s.pc + 2 ∧
      OnlyChanges [.mem, .pc] s t) ∧
    (s.i.toNat + 3 > 4096 → ∃ t, execWith p (.ldB x) s = .next t ∧ HaltedAs (.outOfBounds (.memory s.i 3)) s t)

/-- `Fx33` completes when its three bytes fit, with the three decimal digits of Vx at I, I + 1, I + 2, and halts otherwise
(42_index_memory.md R183, in the default BCD_MODE, which is log entry 2's). -/
def Obligations.DefaultDecimalStoreCompletes : Prop :=
  ∀ (x : Reg) (s : State),
    (s.i.toNat + 3 ≤ 4096 → ∃ t, exec (.ldB x) s = .next t ∧
      (t.readByte s.i.toNat).toNat * 100 + (t.readByte (s.i.toNat + 1)).toNat * 10 +
        (t.readByte (s.i.toNat + 2)).toNat = (s.getV x).toNat ∧
      (t.readByte s.i.toNat).toNat ≤ 2 ∧ (t.readByte (s.i.toNat + 1)).toNat ≤ 9 ∧
      (t.readByte (s.i.toNat + 2)).toNat ≤ 9 ∧
      (∀ a, a < s.i.toNat ∨ s.i.toNat + 3 ≤ a → t.readByte a = s.readByte a) ∧ t.pc = s.pc + 2 ∧
      OnlyChanges [.mem, .pc] s t) ∧
    (s.i.toNat + 3 > 4096 → ∃ t, exec (.ldB x) s = .next t ∧ HaltedAs (.outOfBounds (.memory s.i 3)) s t)

/-- `Fx55` stores V0..Vx at I on and nothing else, I unchanged; out of range it halts and stores nothing
(42_index_memory.md R184). -/
def Obligations.BlockStoreWritesRegisters : Prop :=
  ∀ (x : Reg) (s : State),
    (s.i.toNat + x.toNat + 1 ≤ 4096 → ∃ t, exec (.ldMemVx x) s = .next t ∧
      (∀ j : Reg, j.toNat ≤ x.toNat → t.readByte (s.i.toNat + j.toNat) = s.getV j) ∧
      (∀ a, a < s.i.toNat ∨ s.i.toNat + x.toNat + 1 ≤ a → t.readByte a = s.readByte a) ∧ t.pc = s.pc + 2 ∧
      OnlyChanges [.mem, .pc] s t) ∧
    (s.i.toNat + x.toNat + 1 > 4096 → ∃ t, exec (.ldMemVx x) s = .next t ∧
      HaltedAs (.outOfBounds (.memory s.i (x.toNat + 1))) s t)

/-- `Fx65` loads V0..Vx from I on, the registers above x and I unchanged; out of range it halts (42_index_memory.md
R185). -/
def Obligations.BlockLoadReadsRegisters : Prop :=
  ∀ (x : Reg) (s : State),
    (s.i.toNat + x.toNat + 1 ≤ 4096 → ∃ t, exec (.ldVxMem x) s = .next t ∧
      (∀ j : Reg, j.toNat ≤ x.toNat → t.getV j = s.readByte (s.i.toNat + j.toNat)) ∧
      (∀ j : Reg, x.toNat < j.toNat → t.getV j = s.getV j) ∧ t.pc = s.pc + 2 ∧ OnlyChanges [.v, .pc] s t) ∧
    (s.i.toNat + x.toNat + 1 > 4096 → ∃ t, exec (.ldVxMem x) s = .next t ∧
      HaltedAs (.outOfBounds (.memory s.i (x.toNat + 1))) s t)

/-- A `Fx55` over the instruction word that follows it is what the very next fetch reads (20_memory.md R73). -/
def Obligations.StoreIsSeenByNextFetch : Prop :=
  ∀ (x : Reg) (s t : State), 1 ≤ x.toNat → s.i.toNat = s.pc.toNat + 2 → s.i.toNat + x.toNat + 1 ≤ 4096 →
    exec (.ldMemVx x) s = .next t → fetchWord t = s.getV 0 ++ s.getV 1

/-! ### Display -/

/-- `00E0` turns every pixel off and sets redraw (43_display.md R210); that it does so on a clear screen too is the spec's
own decision D26. -/
def Obligations.ClearScreenClearsEveryPixel : Prop :=
  ∀ s : State, ∃ t, exec .cls s = .next t ∧ (∀ k, t.pixel k = false) ∧ t.redraw = true ∧ t.pc = s.pc + 2 ∧
    OnlyChanges [.fb, .redraw, .pc] s t

/-- `Dxyn` in range flips exactly the pixels the sprite covers, by the flat index and with no wrap; VF is 1 when a covered
pixel was lit and 0 otherwise; redraw is set (43_display.md R211, R212, R214, R215; the bit order is log entry 4's; the flat index, the one flag and
n = 0 are the spec's own decisions D11, D10 and D13, log entry 13). -/
def Obligations.SpriteDrawFlipsCoveredPixels : Prop :=
  ∀ (x y : Reg) (n : Nibble) (s : State), (n.toNat = 0 ∨ s.i.toNat + n.toNat ≤ 4096) → ∃ t, exec (.drw x y n) s = .next t ∧
    (∀ k, k < 2048 → (SpriteCovers s x y n k → t.pixel k = !s.pixel k) ∧ (¬ SpriteCovers s x y n k → t.pixel k = s.pixel k)) ∧
    ((∃ k < 2048, SpriteCovers s x y n k ∧ s.pixel k = true) → t.getV 0xF = 1) ∧
    ((∀ k < 2048, SpriteCovers s x y n k → s.pixel k = false) → t.getV 0xF = 0) ∧
    (∀ r, r ≠ 0xF → t.getV r = s.getV r) ∧ t.redraw = true ∧ t.pc = s.pc + 2 ∧ OnlyChanges [.v, .fb, .redraw, .pc] s t

/-- `Dxyn` with n ≥ 1 whose rows do not fit in memory halts before any pixel changes (43_display.md R211, 20_memory.md
R66). -/
def Obligations.SpriteBeyondMemoryHalts : Prop :=
  ∀ (x y : Reg) (n : Nibble) (s : State), 1 ≤ n.toNat → s.i.toNat + n.toNat > 4096 →
    ∃ t, exec (.drw x y n) s = .next t ∧ HaltedAs (.outOfBounds (.memory s.i n.toNat)) s t

/-- Drawing the same sprite twice at the same place restores every pixel (43_display.md R211; 95_test_vectors.md S8,
T91). -/
def Obligations.SpriteDrawnTwiceRestoresScreen : Prop :=
  ∀ (x y : Reg) (n : Nibble) (s t u : State), x ≠ 0xF → y ≠ 0xF → (n.toNat = 0 ∨ s.i.toNat + n.toNat ≤ 4096) →
    exec (.drw x y n) s = .next t → exec (.drw x y n) t = .next u → ∀ k, k < 2048 → u.pixel k = s.pixel k

/-! ### Keypad and timers -/

/-- `Ex9E` and `ExA1` skip on the key Vx numbers, pressed and not pressed; Vx above 15 halts with KeyIndex
(44_timers_keypad.md R240, R241; that fault is the spec's own decision D17). -/
def Obligations.KeySkipsReadTheKey : Prop :=
  ∀ (x : Reg) (s : State),
    (∀ k : Reg, (s.getV x).toNat = k.toNat →
      (∃ t, exec (.skp x) s = .next t ∧ t.pc = s.pc + (if s.keys.pressed k = true then 4 else 2) ∧ OnlyChanges [.pc] s t) ∧
      (∃ t, exec (.sknp x) s = .next t ∧ t.pc = s.pc + (if s.keys.pressed k = false then 4 else 2) ∧ OnlyChanges [.pc] s t)) ∧
    ((s.getV x).toNat > 15 →
      (∃ t, exec (.skp x) s = .next t ∧ HaltedAs (.outOfBounds (.keyIndex (s.getV x))) s t) ∧
      (∃ t, exec (.sknp x) s = .next t ∧ HaltedAs (.outOfBounds (.keyIndex (s.getV x))) s t))

/-- `Fx0A`: with a key pressed the lowest pressed key, the default KEY_SELECT, goes to Vx at once and pc advances; with
none the core waits at the same pc (44_timers_keypad.md R242, R244; the default is log entry 2's, the level test decision
D8). -/
def Obligations.KeyWaitTakesLowestKeyOrWaits : Prop :=
  ∀ (x : Reg) (s : State),
    (∀ k : Reg, s.keys.pressed k = true → (∀ j : Reg, j.toNat < k.toNat → s.keys.pressed j = false) →
      ∃ t, exec (.ldVxK x) s = .next t ∧ (t.getV x).toNat = k.toNat ∧ (∀ r, r ≠ x → t.getV r = s.getV r) ∧
        t.pc = s.pc + 2 ∧ OnlyChanges [.v, .pc] s t) ∧
    ((∀ k, s.keys.pressed k = false) →
      ∃ t, exec (.ldVxK x) s = .next t ∧ t.status = .awaitingKey x ∧ OnlyChanges [.status] s t)

/-- `Fx0A` under any KEY_SELECT stores a pressed key, and the pressed key when there is one only (44_timers_keypad.md
R242, R244; the level test is the spec's own decision D8, log entry 13). -/
def Obligations.AnyKeySelectStoresPressedKey : Prop :=
  ∀ (p : Params) (x : Reg) (s : State),
    ((∃ k, s.keys.pressed k = true) → ∃ t k, execWith p (.ldVxK x) s = .next t ∧ t.getV x = k.setWidth 8 ∧
      k = p.keySelect s.keys ∧ s.keys.pressed k = true ∧ (∀ j, (∀ i, s.keys.pressed i = true → i = j) → k = j) ∧
      (∀ r, r ≠ x → t.getV r = s.getV r) ∧ t.pc = s.pc + 2 ∧ OnlyChanges [.v, .pc] s t) ∧
    ((∀ k, s.keys.pressed k = false) →
      ∃ t, execWith p (.ldVxK x) s = .next t ∧ t.status = .awaitingKey x ∧ OnlyChanges [.status] s t)

/-- `Fx07` reads the delay timer into Vx (44_timers_keypad.md R245). -/
def Obligations.DelayTimerIsRead : Prop := ∀ x, WritesReg (.ldVxDT x) x (fun s => s.dt)

/-- `Fx15` and `Fx18` set DT and ST to Vx, and sound_on becomes Vx > 0 at once (44_timers_keypad.md R246, R247; 10_state.md
R34). -/
def Obligations.TimersAreSet : Prop :=
  (∀ (x : Reg) (s : State), ∃ t, exec (.ldDTVx x) s = .next t ∧ t.dt = s.getV x ∧ t.pc = s.pc + 2 ∧
    OnlyChanges [.dt, .pc] s t) ∧
  (∀ (x : Reg) (s : State), ∃ t, exec (.ldSTVx x) s = .next t ∧ t.st = s.getV x ∧
    t.soundOn = decide ((s.getV x).toNat > 0) ∧ t.pc = s.pc + 2 ∧ OnlyChanges [.st, .pc] s t)
end

