-- ==== Sys2Proof/Laws/Decode.lean ====
section
/-! SUPPORT. What each field of each format's word is (30_encoding.md R82, R84), the big-endian byte split, and the row of
the opcode map each format's word meets. -/

namespace Sys2Proof

/-! ### Fields of the formats -/

@[simp] theorem fieldClass_encodeA (c : Nibble) (nnn : Addr) : fieldClass (encodeA c nnn) = c := by
  apply BitVec.eq_of_getLsbD_eq
  intro k hk
  simp only [fieldClass, encodeA, BitVec.getLsbD_extractLsb', BitVec.getLsbD_append]
  simp [hk]

@[simp] theorem fieldNNN_encodeA (c : Nibble) (nnn : Addr) : fieldNNN (encodeA c nnn) = nnn := by
  apply BitVec.eq_of_getLsbD_eq
  intro k hk
  simp only [fieldNNN, encodeA, BitVec.getLsbD_extractLsb', BitVec.getLsbD_append]
  simp [hk]

@[simp] theorem fieldClass_encodeXB (c : Nibble) (x : Reg) (b : Byte) : fieldClass (encodeXB c x b) = c :=
  fieldClass_encodeA c (x ++ b)

@[simp] theorem fieldX_encodeXB (c : Nibble) (x : Reg) (b : Byte) : fieldX (encodeXB c x b) = x := by
  apply BitVec.eq_of_getLsbD_eq
  intro k hk
  simp only [fieldX, encodeXB, BitVec.getLsbD_extractLsb', BitVec.getLsbD_append]
  simp [hk]
  omega

@[simp] theorem fieldNN_encodeXB (c : Nibble) (x : Reg) (b : Byte) : fieldNN (encodeXB c x b) = b := by
  apply BitVec.eq_of_getLsbD_eq
  intro k hk
  simp only [fieldNN, encodeXB, BitVec.getLsbD_extractLsb', BitVec.getLsbD_append]
  simp [hk]
  omega

@[simp] theorem fieldClass_encodeXY (c : Nibble) (x y : Reg) (n : Nibble) : fieldClass (encodeXY c x y n) = c :=
  fieldClass_encodeA c (x ++ (y ++ n))

@[simp] theorem fieldX_encodeXY (c : Nibble) (x y : Reg) (n : Nibble) : fieldX (encodeXY c x y n) = x :=
  fieldX_encodeXB c x (y ++ n)

@[simp] theorem fieldY_encodeXY (c : Nibble) (x y : Reg) (n : Nibble) : fieldY (encodeXY c x y n) = y := by
  apply BitVec.eq_of_getLsbD_eq
  intro k hk
  simp only [fieldY, encodeXY, BitVec.getLsbD_extractLsb', BitVec.getLsbD_append]
  simp [hk, show 4 + k < 12 by omega, show 4 + k < 8 by omega]

@[simp] theorem fieldN_encodeXY (c : Nibble) (x y : Reg) (n : Nibble) : fieldN (encodeXY c x y n) = n := by
  apply BitVec.eq_of_getLsbD_eq
  intro k hk
  simp only [fieldN, encodeXY, BitVec.getLsbD_extractLsb', BitVec.getLsbD_append]
  simp [hk, show k < 12 by omega, show k < 8 by omega]

/-! ### A word is its fields -/

theorem encodeA_fields (w : Word) : encodeA (fieldClass w) (fieldNNN w) = w := by
  apply BitVec.eq_of_getLsbD_eq
  intro k hk
  simp only [fieldClass, fieldNNN, encodeA, BitVec.getLsbD_extractLsb', BitVec.getLsbD_append]
  split
  · simp_all
  · simp [show k - 12 < 4 by omega, show 12 + (k - 12) = k by omega]

theorem encodeXB_fields (w : Word) : encodeXB (fieldClass w) (fieldX w) (fieldNN w) = w := by
  apply BitVec.eq_of_getLsbD_eq
  intro k hk
  simp only [fieldClass, fieldX, fieldNN, encodeXB, BitVec.getLsbD_extractLsb', BitVec.getLsbD_append]
  split
  · split
    · simp_all
    · simp [show k - 8 < 4 by omega, show 8 + (k - 8) = k by omega]
  · simp [show k - 12 < 4 by omega, show 12 + (k - 12) = k by omega]

theorem encodeXY_fields (w : Word) : encodeXY (fieldClass w) (fieldX w) (fieldY w) (fieldN w) = w := by
  apply BitVec.eq_of_getLsbD_eq
  intro k hk
  simp only [fieldClass, fieldX, fieldY, fieldN, encodeXY, BitVec.getLsbD_extractLsb', BitVec.getLsbD_append]
  split
  · split
    · split
      · simp_all
      · simp [show k - 4 < 4 by omega, show 4 + (k - 4) = k by omega]
    · simp [show k - 8 < 4 by omega, show 8 + (k - 8) = k by omega]
  · simp [show k - 12 < 4 by omega, show 12 + (k - 12) = k by omega]

/-! ### Bytes -/

@[simp] theorem wordOfBytes_split (w : Word) : wordOfBytes (wordHigh w) (wordLow w) = w := by
  apply BitVec.eq_of_getLsbD_eq
  intro k hk
  simp only [wordOfBytes, wordHigh, wordLow, BitVec.getLsbD_extractLsb', BitVec.getLsbD_append]
  split
  · simp_all
  · simp [show k - 8 < 8 by omega, show 8 + (k - 8) = k by omega]

/-! ### Rows of the opcode map -/

/-- Mask 0xF000 keeps the class (30_encoding.md R91). -/
theorem encodeA_mask (c : Nibble) (nnn : Addr) : encodeA c nnn &&& 0xF000 = encodeA c 0 := by
  apply BitVec.eq_of_getLsbD_eq
  intro k hk
  simp only [encodeA, BitVec.getLsbD_and, BitVec.getLsbD_append]
  interval_cases k <;> simp

/-- Mask 0xF0FF keeps the class and the low byte (30_encoding.md R91). -/
theorem encodeXB_mask (c : Nibble) (x : Reg) (b : Byte) : encodeXB c x b &&& 0xF0FF = encodeXB c 0 b := by
  apply BitVec.eq_of_getLsbD_eq
  intro k hk
  simp only [encodeXB, BitVec.getLsbD_and, BitVec.getLsbD_append]
  interval_cases k <;> simp

/-- Mask 0xF00F keeps the class and the low nibble (30_encoding.md R91). -/
theorem encodeXY_mask (c : Nibble) (x y : Reg) (n : Nibble) : encodeXY c x y n &&& 0xF00F = encodeXY c 0 0 n := by
  apply BitVec.eq_of_getLsbD_eq
  intro k hk
  simp only [encodeXY, BitVec.getLsbD_and, BitVec.getLsbD_append]
  interval_cases k <;> simp

end Sys2Proof
end

