-- ==== Sys2Proof/Laws/Display.lean ====
section
/-! SUPPORT. What drawing a sprite does to each pixel and to the collision bit (43_display.md R211 to R214). -/

namespace Sys2Proof.Machine

/-- Flipping a pixel of the framebuffer changes it and no other (43_display.md R211). -/
theorem lit_flip (fb : Pixels) (idx k : Nat) (hi : idx < numPixels) :
    Pixels.lit (Pixels.flip fb idx) k = (Pixels.lit fb k ^^ decide (idx = k)) := by
  simp only [Pixels.lit, Pixels.flip, screenWidth, numPixels] at hi ⊢
  rw [Vector.getElem?_setIfInBounds]
  have hrow : idx / 64 < 32 := by omega
  by_cases hr : idx / 64 = k / 64
  · rw [if_pos hr, if_pos hrow, hr, Option.getD_some, BitVec.getLsbD_xor, BitVec.getLsbD_twoPow]
    have hw : idx % 64 < 64 := by omega
    have he : (idx % 64 = k % 64) ↔ idx = k := by omega
    simp [hw, he]
  · rw [if_neg hr, decide_eq_false (show ¬ idx = k by omega), Bool.xor_false]

theorem lit_clear (k : Nat) : Pixels.lit Pixels.clear k = false := by
  simp only [Pixels.lit, Pixels.clear]
  by_cases h : k / screenWidth < 32 <;> simp [h]

/-- Plotting flips the one pixel it names. -/
theorem plot_pixel (idx : Nat) (p : Canvas) (k : Nat) (hi : idx < numPixels) :
    Pixels.lit (plot idx p).fb k = (Pixels.lit p.fb k ^^ decide (idx = k)) := by
  simpa [plot] using lit_flip p.fb idx k hi

@[simp] theorem plot_hit (idx : Nat) (p : Canvas) : (plot idx p).hit = (p.hit || Pixels.lit p.fb idx) := rfl

/-- One of the last `left` columns of a row at `start` has a set bit on the flat index `k`. -/
def colsCover (row : Byte) (start left k : Nat) : Prop :=
  start + (8 - left) ≤ k ∧ k < start + 8 ∧ spriteBit row (k - start) = true

/-- One of the rows of a sprite at `start` has a set bit on the flat index `k`. -/
def rowsCover : Nat → List Byte → Nat → Prop
  | _, [], _ => False
  | start, row :: rows, k => colsCover row start 8 k ∨ rowsCover (start + screenWidth) rows k

theorem colsCover_zero (row : Byte) (start k : Nat) : ¬ colsCover row start 0 k := by
  simp only [colsCover]; omega

/-- A column is covered by its own bit or by a later column's. -/
theorem colsCover_succ (row : Byte) (start left k : Nat) (h : left < 8) : colsCover row start (left + 1) k ↔
    (k = start + (7 - left) ∧ spriteBit row (7 - left) = true) ∨ colsCover row start left k := by
  simp only [colsCover]
  constructor
  · rintro ⟨h1, h2, h3⟩
    by_cases e : k = start + (7 - left)
    · exact .inl ⟨e, by rwa [e, Nat.add_sub_cancel_left] at h3⟩
    · exact .inr ⟨by omega, h2, h3⟩
  · rintro (⟨rfl, h3⟩ | ⟨h1, h2, h3⟩)
    · exact ⟨by omega, by omega, by rwa [Nat.add_sub_cancel_left]⟩
    · exact ⟨by omega, h2, h3⟩

/-- Drawing the last columns of a row flips exactly the covered pixels of the framebuffer. -/
theorem drawCols_pixel (row : Byte) (start : Nat) : ∀ (left : Nat) (p : Canvas) (k : Nat), left ≤ 8 → k < numPixels →
    ((colsCover row start left k → Pixels.lit (drawCols row start left p).fb k = !Pixels.lit p.fb k) ∧
     (¬ colsCover row start left k → Pixels.lit (drawCols row start left p).fb k = Pixels.lit p.fb k)) := by
  intro left
  induction left with
  | zero => intro p k _ _; exact ⟨fun h => absurd h (colsCover_zero row start k), fun _ => rfl⟩
  | succ left ih =>
    intro p k hl hk
    rw [colsCover_succ _ _ _ _ hl, drawCols]
    by_cases hb : spriteBit row (7 - left) = true
    · rw [if_pos hb]
      split
      · next hoff =>
        have : ¬ colsCover row start left k := by simp only [colsCover]; omega
        refine ⟨fun h => ?_, fun _ => rfl⟩
        rcases h with ⟨e, _⟩ | h
        · omega
        · exact absurd h this
      · next hon =>
        have ih := ih (plot (start + (7 - left)) p) k (by omega) hk
        rw [plot_pixel _ _ _ (by omega)] at ih
        by_cases e : k = start + (7 - left)
        · have : ¬ colsCover row start left k := by simp only [colsCover]; omega
          refine ⟨fun _ => ?_, fun h => absurd (.inl ⟨e, hb⟩) h⟩
          rw [ih.2 this]; simp [e]
        · have e' : ¬ start + (7 - left) = k := fun h => e h.symm
          simp only [e', decide_false, Bool.xor_false] at ih
          exact ⟨fun h => ih.1 (h.resolve_left (fun h => e h.1)), fun h => ih.2 (fun h' => h (.inr h'))⟩
    · rw [if_neg hb]
      have ih := ih p k (by omega) hk
      exact ⟨fun h => ih.1 (h.resolve_left (fun h => hb h.2)), fun h => ih.2 (fun h' => h (.inr h'))⟩

/-- Drawing the last columns of a row collides exactly when a covered pixel of the framebuffer was lit. -/
theorem drawCols_hit (row : Byte) (start : Nat) : ∀ (left : Nat) (p : Canvas), left ≤ 8 →
    ((drawCols row start left p).hit = true ↔
      p.hit = true ∨ ∃ k < numPixels, colsCover row start left k ∧ Pixels.lit p.fb k = true) := by
  intro left
  induction left with
  | zero =>
    intro p _
    exact ⟨.inl, fun h => h.elim id (fun ⟨k, _, h, _⟩ => absurd h (colsCover_zero row start k))⟩
  | succ left ih =>
    intro p hl
    have step := fun k => colsCover_succ row start left k hl
    rw [drawCols]
    by_cases hb : spriteBit row (7 - left) = true
    · rw [if_pos hb]
      split
      · next hoff =>
        refine ⟨.inl, fun h => h.elim id (fun ⟨k, hk, hc, _⟩ => ?_)⟩
        simp only [colsCover] at hc
        omega
      · next hon =>
        rw [ih _ (by omega), plot_hit, Bool.or_eq_true]
        constructor
        · rintro ((h | h) | ⟨k, hk, hc, hp⟩)
          · exact .inl h
          · exact .inr ⟨_, by omega, (step _).mpr (.inl ⟨rfl, hb⟩), h⟩
          · have hne : start + (7 - left) ≠ k := by simp only [colsCover] at hc; omega
            rw [plot_pixel _ _ _ (by omega)] at hp
            exact .inr ⟨k, hk, (step k).mpr (.inr hc), by simpa [hne] using hp⟩
        · rintro (h | ⟨k, hk, hc, hp⟩)
          · exact .inl (.inl h)
          · rcases (step k).mp hc with ⟨e, _⟩ | hc
            · exact .inl (.inr (e ▸ hp))
            · have hne : start + (7 - left) ≠ k := by simp only [colsCover] at hc; omega
              refine .inr ⟨k, hk, hc, ?_⟩
              rw [plot_pixel _ _ _ (by omega)]
              simpa [hne] using hp
    · rw [if_neg hb, ih p (by omega)]
      have : ∀ k, colsCover row start (left + 1) k ↔ colsCover row start left k := fun k =>
        (step k).trans ⟨fun h => h.resolve_left (fun h => hb h.2), .inr⟩
      simp only [this]

/-- The rows below start at least one screen row later. -/
theorem rowsCover_ge : ∀ (rows : List Byte) (start k : Nat), rowsCover start rows k → start ≤ k := by
  intro rows
  induction rows with
  | nil => intro start k h; exact absurd h id
  | cons row rows ih =>
    intro start k h
    rcases h with h | h
    · simp only [colsCover] at h; omega
    · have := ih _ _ h; simp only [screenWidth] at this; omega

/-- Drawing a sprite flips exactly the covered pixels of the framebuffer (43_display.md R211, R212). -/
theorem drawRows_pixel : ∀ (rows : List Byte) (start : Nat) (p : Canvas) (k : Nat), k < numPixels →
    ((rowsCover start rows k → Pixels.lit (drawRows start rows p).fb k = !Pixels.lit p.fb k) ∧
     (¬ rowsCover start rows k → Pixels.lit (drawRows start rows p).fb k = Pixels.lit p.fb k)) := by
  intro rows
  induction rows with
  | nil => intro start p k _; exact ⟨fun h => absurd h id, fun _ => rfl⟩
  | cons row rows ih =>
    intro start p k hk
    have hrow := drawCols_pixel row start 8 p k le_rfl hk
    have ih := ih (start + screenWidth) (drawCols row start 8 p) k hk
    by_cases hc : colsCover row start 8 k
    · have hlater : ¬ rowsCover (start + screenWidth) rows k := fun h => by
        have := rowsCover_ge _ _ _ h
        simp only [colsCover, screenWidth] at hc this
        omega
      exact ⟨fun _ => (ih.2 hlater).trans (hrow.1 hc), fun h => absurd (.inl hc) h⟩
    · exact ⟨fun h => (ih.1 (h.resolve_left hc)).trans (by rw [hrow.2 hc]),
        fun h => (ih.2 (fun h' => h (.inr h'))).trans (hrow.2 hc)⟩

/-- Drawing a sprite collides exactly when a covered pixel of the framebuffer was lit (43_display.md R214). -/
theorem drawRows_hit : ∀ (rows : List Byte) (start : Nat) (p : Canvas),
    ((drawRows start rows p).hit = true ↔
      p.hit = true ∨ ∃ k < numPixels, rowsCover start rows k ∧ Pixels.lit p.fb k = true) := by
  intro rows
  induction rows with
  | nil => intro start p; exact ⟨.inl, fun h => h.elim id (fun ⟨_, _, h, _⟩ => absurd h id)⟩
  | cons row rows ih =>
    intro start p
    rw [drawRows, ih, drawCols_hit row start 8 p le_rfl]
    have keep : ∀ k, k < numPixels → rowsCover (start + screenWidth) rows k →
        Pixels.lit (drawCols row start 8 p).fb k = Pixels.lit p.fb k := fun k hk h =>
      (drawCols_pixel row start 8 p k le_rfl hk).2 (fun hc => by
        have := rowsCover_ge _ _ _ h
        simp only [colsCover, screenWidth] at hc this
        omega)
    constructor
    · rintro ((h | ⟨k, hk, hc, hp⟩) | ⟨k, hk, hc, hp⟩)
      · exact .inl h
      · exact .inr ⟨k, hk, .inl hc, hp⟩
      · exact .inr ⟨k, hk, .inr hc, (keep k hk hc) ▸ hp⟩
    · rintro (h | ⟨k, hk, hc | hc, hp⟩)
      · exact .inl (.inl h)
      · exact .inl (.inr ⟨k, hk, hc, hp⟩)
      · exact .inr ⟨k, hk, hc, (keep k hk hc).symm ▸ hp⟩

/-- Covering, written with the spec's row and column loops (43_display.md R211). -/
theorem rowsCover_iff : ∀ (rows : List Byte) (start k : Nat), rowsCover start rows k ↔
    ∃ r, ∃ h : r < rows.length, ∃ c < 8, spriteBit rows[r] c = true ∧ start + r * screenWidth + c = k := by
  intro rows
  induction rows with
  | nil => intro start k; exact ⟨fun h => absurd h id, fun ⟨r, h, _⟩ => absurd h (by simp)⟩
  | cons row rows ih =>
    intro start k
    rw [rowsCover, ih]
    constructor
    · rintro (⟨h1, h2, h3⟩ | ⟨r, h, c, hc, hb, e⟩)
      · exact ⟨0, by simp, k - start, by omega, h3, by omega⟩
      · exact ⟨r + 1, by simpa using h, c, hc, hb, by simp only [screenWidth] at e ⊢; omega⟩
    · rintro ⟨r, h, c, hc, hb, e⟩
      cases r with
      | zero =>
        refine .inl ⟨by omega, by omega, ?_⟩
        rwa [show k - start = c by omega]
      | succ r =>
        exact .inr ⟨r, by simpa using h, c, hc, hb, by simp only [screenWidth] at e ⊢; omega⟩

end Sys2Proof.Machine
end

