-- ==== Sys2Proof/Laws/Memory.lean ====
section
/-! SUPPORT. The laws of memory: read after write, and that every operation keeps the canonical form. No law about reads
needs the canonical form as a hypothesis. -/

namespace Sys2Proof.Machine

theorem Memory.read_erase (m : Memory) (a x : Nat) :
    (m.erase a).read x = if x = a then Memory.initial a else m.read x := by
  induction m with
  | nil => simp only [Memory.erase, List.filter_nil, Memory.read]; split <;> simp_all
  | cons c m ih =>
    simp only [Memory.erase] at ih
    by_cases hc : c.1 = a
    · simp only [Memory.erase, List.filter_cons, hc, ne_eq, not_true, decide_false, Memory.read, Bool.false_eq_true, if_false, ih]
      split
      · rfl
      · next hx => simp [Ne.symm hx]
    · simp only [Memory.erase, List.filter_cons, hc, ne_eq, not_false_eq_true, decide_true, if_true, Memory.read, ih]
      grind

theorem Memory.read_insert (m : Memory) (a x : Nat) (b : Byte) (h : ∀ c ∈ m, c.1 ≠ a) :
    (m.insert a b).read x = if x = a then b else m.read x := by
  induction m with
  | nil =>
    simp only [Memory.insert, Memory.read]
    grind
  | cons c m ih =>
    have hc := h c (by simp)
    have ih := ih (fun d hd => h d (by simp [hd]))
    simp only [Memory.insert]
    split
    · simp only [Memory.read]
      grind
    · simp only [Memory.read, ih]
      grind

/-- The law of a store: the stored byte at its address, every other address as before. -/
theorem Memory.read_write (m : Memory) (a x : Nat) (b : Byte) :
    (m.write a b).read x = if x = a then b else m.read x := by
  simp only [Memory.write]
  split
  · next h => rw [Memory.read_erase, h]
  · rw [Memory.read_insert _ _ _ _ (by simp [Memory.erase]), Memory.read_erase]
    split <;> rfl

theorem Memory.read_write_same (m : Memory) (a : Nat) (b : Byte) : (m.write a b).read a = b := by
  simp [Memory.read_write]

theorem Memory.read_write_ne (m : Memory) {a x : Nat} (h : x ≠ a) (b : Byte) : (m.write a b).read x = m.read x := by
  simp [Memory.read_write, h]

/-- A multi-byte store leaves every byte outside its range as it was. -/
theorem Memory.read_writeBytes_outside (bs : List Byte) : ∀ (m : Memory) (a x : Nat),
    x < a ∨ a + bs.length ≤ x → (m.writeBytes a bs).read x = m.read x := by
  induction bs with
  | nil => intro m a x _; rfl
  | cons b bs ih =>
    intro m a x h
    simp only [List.length_cons] at h
    rw [Memory.writeBytes, ih _ _ _ (by omega), Memory.read_write_ne _ (by omega)]

/-- A multi-byte store puts each byte at its address. -/
theorem Memory.read_writeBytes_inside (bs : List Byte) : ∀ (m : Memory) (a k : Nat) (h : k < bs.length),
    (m.writeBytes a bs).read (a + k) = bs[k] := by
  induction bs with
  | nil => intro m a k h; simp at h
  | cons b bs ih =>
    intro m a k h
    rw [Memory.writeBytes]
    cases k with
    | zero => rw [Memory.read_writeBytes_outside _ _ _ _ (by omega), Nat.add_zero, Memory.read_write_same]; rfl
    | succ k =>
      have h' : k < bs.length := by simpa using h
      rw [show a + (k + 1) = a + 1 + k by omega, ih _ _ _ h']
      rfl

@[simp] theorem Memory.length_readBytes (m : Memory) (a k : Nat) : (m.readBytes a k).length = k := by
  induction k generalizing a with
  | zero => rfl
  | succ k ih => simp [Memory.readBytes, ih]

theorem Memory.getElem_readBytes (m : Memory) (a k j : Nat) (h : j < (m.readBytes a k).length) :
    (m.readBytes a k)[j] = m.read (a + j) := by
  induction k generalizing a j with
  | zero => simp at h
  | succ k ih =>
    cases j with
    | zero => rfl
    | succ j =>
      simp only [Memory.readBytes, List.getElem_cons_succ]
      rw [ih]
      congr 1
      omega

/-! ### The canonical form -/

theorem Memory.wf_iff (m : Memory) : m.wf = true ↔
    m.Pairwise (fun c d => c.1 < d.1) ∧ ∀ c ∈ m, c.1 < memSize ∧ c.2 ≠ Memory.initial c.1 := by
  simp [Memory.wf]

theorem Memory.wf_nil : Memory.wf [] = true := rfl

theorem Memory.wf_erase {m : Memory} (h : m.wf = true) (a : Nat) : (m.erase a).wf = true := by
  rw [Memory.wf_iff] at h ⊢
  exact ⟨h.1.filter _, fun c hc => h.2 c (List.mem_of_mem_filter hc)⟩

theorem Memory.mem_insert (m : Memory) (a : Nat) (b : Byte) (c : Host.Cell) :
    c ∈ m.insert a b ↔ c = (a, b) ∨ c ∈ m := by
  induction m with
  | nil => simp [Memory.insert]
  | cons d m ih =>
    simp only [Memory.insert]
    split
    · simp
    · simp only [List.mem_cons, ih]
      tauto

theorem Memory.pairwise_insert (m : Memory) (a : Nat) (b : Byte) (hm : m.Pairwise (fun c d => c.1 < d.1))
    (ha : ∀ c ∈ m, c.1 ≠ a) : (m.insert a b).Pairwise (fun c d => c.1 < d.1) := by
  induction m with
  | nil => simp [Memory.insert]
  | cons d m ih =>
    have hd : d.1 ≠ a := ha d (by simp)
    rw [List.pairwise_cons] at hm
    simp only [Memory.insert]
    split
    · next hlt =>
      refine List.pairwise_cons.mpr ⟨fun c hc => ?_, List.pairwise_cons.mpr hm⟩
      rcases List.mem_cons.mp hc with rfl | hc
      · exact hlt
      · exact hlt.trans (hm.1 c hc)
    · refine List.pairwise_cons.mpr ⟨fun c hc => ?_, ih hm.2 (fun c hc => ha c (by simp [hc]))⟩
      rcases (Memory.mem_insert m a b c).mp hc with rfl | hc
      · show d.1 < a; omega
      · exact hm.1 c hc

/-- A store inside the address space keeps the canonical form. -/
theorem Memory.wf_write {m : Memory} (h : m.wf = true) {a : Nat} (ha : a < memSize) (b : Byte) :
    (m.write a b).wf = true := by
  simp only [Memory.write]
  split
  · exact Memory.wf_erase h a
  · next hb =>
    have he := (Memory.wf_iff _).mp (Memory.wf_erase h a)
    refine (Memory.wf_iff _).mpr ⟨Memory.pairwise_insert _ _ _ he.1 (by simp [Memory.erase]), fun c hc => ?_⟩
    rcases (Memory.mem_insert _ _ _ _).mp hc with rfl | hc
    · exact ⟨ha, hb⟩
    · exact he.2 c hc

/-- A multi-byte store inside the address space keeps the canonical form. -/
theorem Memory.wf_writeBytes (bs : List Byte) : ∀ {m : Memory}, m.wf = true → ∀ {a : Nat}, a + bs.length ≤ memSize →
    (m.writeBytes a bs).wf = true := by
  induction bs with
  | nil => intro m h a _; exact h
  | cons b bs ih =>
    intro m h a ha
    simp only [List.length_cons] at ha
    exact ih (Memory.wf_write h (by omega) b) (by omega)

theorem Memory.inRange_iff (a k : Nat) : Memory.inRange a k = true ↔ k = 0 ∨ a + k ≤ memSize := by
  simp [Memory.inRange]

end Sys2Proof.Machine
end

