-- ==== Sys2Proof/Laws/State.lean ====
section
/-! SUPPORT. One lemma per field per named update of the state, so that no proof unfolds an update, and the register file's
read-after-write laws. -/

namespace Sys2Proof.Machine

/-! ### `setV` -/

@[simp] theorem State.setV_mem (s : State) (x : Reg) (b : Byte) : (s.setV x b).mem = s.mem := rfl
@[simp] theorem State.setV_i (s : State) (x : Reg) (b : Byte) : (s.setV x b).i = s.i := rfl
@[simp] theorem State.setV_pc (s : State) (x : Reg) (b : Byte) : (s.setV x b).pc = s.pc := rfl
@[simp] theorem State.setV_stack (s : State) (x : Reg) (b : Byte) : (s.setV x b).stack = s.stack := rfl
@[simp] theorem State.setV_sp (s : State) (x : Reg) (b : Byte) : (s.setV x b).sp = s.sp := rfl
@[simp] theorem State.setV_dt (s : State) (x : Reg) (b : Byte) : (s.setV x b).dt = s.dt := rfl
@[simp] theorem State.setV_st (s : State) (x : Reg) (b : Byte) : (s.setV x b).st = s.st := rfl
@[simp] theorem State.setV_keys (s : State) (x : Reg) (b : Byte) : (s.setV x b).keys = s.keys := rfl
@[simp] theorem State.setV_fb (s : State) (x : Reg) (b : Byte) : (s.setV x b).fb = s.fb := rfl
@[simp] theorem State.setV_redraw (s : State) (x : Reg) (b : Byte) : (s.setV x b).redraw = s.redraw := rfl
@[simp] theorem State.setV_status (s : State) (x : Reg) (b : Byte) : (s.setV x b).status = s.status := rfl
@[simp] theorem State.setV_draws (s : State) (x : Reg) (b : Byte) : (s.setV x b).draws = s.draws := rfl

/-! ### `jumpTo` -/

@[simp] theorem State.jumpTo_pc (s : State) (w : Word) : (s.jumpTo w).pc = w := rfl
@[simp] theorem State.jumpTo_mem (s : State) (w : Word) : (s.jumpTo w).mem = s.mem := rfl
@[simp] theorem State.jumpTo_v (s : State) (w : Word) : (s.jumpTo w).v = s.v := rfl
@[simp] theorem State.jumpTo_i (s : State) (w : Word) : (s.jumpTo w).i = s.i := rfl
@[simp] theorem State.jumpTo_stack (s : State) (w : Word) : (s.jumpTo w).stack = s.stack := rfl
@[simp] theorem State.jumpTo_sp (s : State) (w : Word) : (s.jumpTo w).sp = s.sp := rfl
@[simp] theorem State.jumpTo_dt (s : State) (w : Word) : (s.jumpTo w).dt = s.dt := rfl
@[simp] theorem State.jumpTo_st (s : State) (w : Word) : (s.jumpTo w).st = s.st := rfl
@[simp] theorem State.jumpTo_keys (s : State) (w : Word) : (s.jumpTo w).keys = s.keys := rfl
@[simp] theorem State.jumpTo_fb (s : State) (w : Word) : (s.jumpTo w).fb = s.fb := rfl
@[simp] theorem State.jumpTo_redraw (s : State) (w : Word) : (s.jumpTo w).redraw = s.redraw := rfl
@[simp] theorem State.jumpTo_status (s : State) (w : Word) : (s.jumpTo w).status = s.status := rfl
@[simp] theorem State.jumpTo_draws (s : State) (w : Word) : (s.jumpTo w).draws = s.draws := rfl

/-! ### `advance` -/

@[simp] theorem State.advance_pc (s : State) : s.advance.pc = s.pc + 2 := rfl
@[simp] theorem State.advance_mem (s : State) : (s.advance).mem = s.mem := rfl
@[simp] theorem State.advance_v (s : State) : (s.advance).v = s.v := rfl
@[simp] theorem State.advance_i (s : State) : (s.advance).i = s.i := rfl
@[simp] theorem State.advance_stack (s : State) : (s.advance).stack = s.stack := rfl
@[simp] theorem State.advance_sp (s : State) : (s.advance).sp = s.sp := rfl
@[simp] theorem State.advance_dt (s : State) : (s.advance).dt = s.dt := rfl
@[simp] theorem State.advance_st (s : State) : (s.advance).st = s.st := rfl
@[simp] theorem State.advance_keys (s : State) : (s.advance).keys = s.keys := rfl
@[simp] theorem State.advance_fb (s : State) : (s.advance).fb = s.fb := rfl
@[simp] theorem State.advance_redraw (s : State) : (s.advance).redraw = s.redraw := rfl
@[simp] theorem State.advance_status (s : State) : (s.advance).status = s.status := rfl
@[simp] theorem State.advance_draws (s : State) : (s.advance).draws = s.draws := rfl

/-! ### `skipIf` -/

theorem State.skipIf_pc (s : State) (c : Bool) : (s.skipIf c).pc = if c then s.pc + 4 else s.pc + 2 := by
  cases c <;> rfl
@[simp] theorem State.skipIf_mem (s : State) (c : Bool) : (s.skipIf c).mem = s.mem := by cases c <;> rfl
@[simp] theorem State.skipIf_v (s : State) (c : Bool) : (s.skipIf c).v = s.v := by cases c <;> rfl
@[simp] theorem State.skipIf_i (s : State) (c : Bool) : (s.skipIf c).i = s.i := by cases c <;> rfl
@[simp] theorem State.skipIf_stack (s : State) (c : Bool) : (s.skipIf c).stack = s.stack := by cases c <;> rfl
@[simp] theorem State.skipIf_sp (s : State) (c : Bool) : (s.skipIf c).sp = s.sp := by cases c <;> rfl
@[simp] theorem State.skipIf_dt (s : State) (c : Bool) : (s.skipIf c).dt = s.dt := by cases c <;> rfl
@[simp] theorem State.skipIf_st (s : State) (c : Bool) : (s.skipIf c).st = s.st := by cases c <;> rfl
@[simp] theorem State.skipIf_keys (s : State) (c : Bool) : (s.skipIf c).keys = s.keys := by cases c <;> rfl
@[simp] theorem State.skipIf_fb (s : State) (c : Bool) : (s.skipIf c).fb = s.fb := by cases c <;> rfl
@[simp] theorem State.skipIf_redraw (s : State) (c : Bool) : (s.skipIf c).redraw = s.redraw := by cases c <;> rfl
@[simp] theorem State.skipIf_status (s : State) (c : Bool) : (s.skipIf c).status = s.status := by cases c <;> rfl
@[simp] theorem State.skipIf_draws (s : State) (c : Bool) : (s.skipIf c).draws = s.draws := by cases c <;> rfl

/-! ### `halt` -/

@[simp] theorem State.halt_status (s : State) (r : HaltReason) : (s.halt r).status = .halted r := rfl
@[simp] theorem State.halt_mem (s : State) (r : HaltReason) : (s.halt r).mem = s.mem := rfl
@[simp] theorem State.halt_v (s : State) (r : HaltReason) : (s.halt r).v = s.v := rfl
@[simp] theorem State.halt_i (s : State) (r : HaltReason) : (s.halt r).i = s.i := rfl
@[simp] theorem State.halt_pc (s : State) (r : HaltReason) : (s.halt r).pc = s.pc := rfl
@[simp] theorem State.halt_stack (s : State) (r : HaltReason) : (s.halt r).stack = s.stack := rfl
@[simp] theorem State.halt_sp (s : State) (r : HaltReason) : (s.halt r).sp = s.sp := rfl
@[simp] theorem State.halt_dt (s : State) (r : HaltReason) : (s.halt r).dt = s.dt := rfl
@[simp] theorem State.halt_st (s : State) (r : HaltReason) : (s.halt r).st = s.st := rfl
@[simp] theorem State.halt_keys (s : State) (r : HaltReason) : (s.halt r).keys = s.keys := rfl
@[simp] theorem State.halt_fb (s : State) (r : HaltReason) : (s.halt r).fb = s.fb := rfl
@[simp] theorem State.halt_redraw (s : State) (r : HaltReason) : (s.halt r).redraw = s.redraw := rfl
@[simp] theorem State.halt_draws (s : State) (r : HaltReason) : (s.halt r).draws = s.draws := rfl

/-! ### `push` and `pop` -/

@[simp] theorem State.push_mem (s : State) (w : Word) : (s.push w).mem = s.mem := rfl
@[simp] theorem State.push_v (s : State) (w : Word) : (s.push w).v = s.v := rfl
@[simp] theorem State.push_i (s : State) (w : Word) : (s.push w).i = s.i := rfl
@[simp] theorem State.push_pc (s : State) (w : Word) : (s.push w).pc = s.pc := rfl
@[simp] theorem State.push_dt (s : State) (w : Word) : (s.push w).dt = s.dt := rfl
@[simp] theorem State.push_st (s : State) (w : Word) : (s.push w).st = s.st := rfl
@[simp] theorem State.push_keys (s : State) (w : Word) : (s.push w).keys = s.keys := rfl
@[simp] theorem State.push_fb (s : State) (w : Word) : (s.push w).fb = s.fb := rfl
@[simp] theorem State.push_redraw (s : State) (w : Word) : (s.push w).redraw = s.redraw := rfl
@[simp] theorem State.push_status (s : State) (w : Word) : (s.push w).status = s.status := rfl
@[simp] theorem State.push_draws (s : State) (w : Word) : (s.push w).draws = s.draws := rfl
@[simp] theorem State.pop_mem (s : State) : (s.pop).mem = s.mem := rfl
@[simp] theorem State.pop_v (s : State) : (s.pop).v = s.v := rfl
@[simp] theorem State.pop_i (s : State) : (s.pop).i = s.i := rfl
@[simp] theorem State.pop_pc (s : State) : (s.pop).pc = s.pc := rfl
@[simp] theorem State.pop_stack (s : State) : (s.pop).stack = s.stack := rfl
@[simp] theorem State.pop_dt (s : State) : (s.pop).dt = s.dt := rfl
@[simp] theorem State.pop_st (s : State) : (s.pop).st = s.st := rfl
@[simp] theorem State.pop_keys (s : State) : (s.pop).keys = s.keys := rfl
@[simp] theorem State.pop_fb (s : State) : (s.pop).fb = s.fb := rfl
@[simp] theorem State.pop_redraw (s : State) : (s.pop).redraw = s.redraw := rfl
@[simp] theorem State.pop_status (s : State) : (s.pop).status = s.status := rfl
@[simp] theorem State.pop_draws (s : State) : (s.pop).draws = s.draws := rfl

/-! ### `writeBytes` -/

@[simp] theorem State.writeBytes_v (s : State) (a : Nat) (bs : List Byte) : (s.writeBytes a bs).v = s.v := rfl
@[simp] theorem State.writeBytes_i (s : State) (a : Nat) (bs : List Byte) : (s.writeBytes a bs).i = s.i := rfl
@[simp] theorem State.writeBytes_pc (s : State) (a : Nat) (bs : List Byte) : (s.writeBytes a bs).pc = s.pc := rfl
@[simp] theorem State.writeBytes_stack (s : State) (a : Nat) (bs : List Byte) : (s.writeBytes a bs).stack = s.stack := rfl
@[simp] theorem State.writeBytes_sp (s : State) (a : Nat) (bs : List Byte) : (s.writeBytes a bs).sp = s.sp := rfl
@[simp] theorem State.writeBytes_dt (s : State) (a : Nat) (bs : List Byte) : (s.writeBytes a bs).dt = s.dt := rfl
@[simp] theorem State.writeBytes_st (s : State) (a : Nat) (bs : List Byte) : (s.writeBytes a bs).st = s.st := rfl
@[simp] theorem State.writeBytes_keys (s : State) (a : Nat) (bs : List Byte) : (s.writeBytes a bs).keys = s.keys := rfl
@[simp] theorem State.writeBytes_fb (s : State) (a : Nat) (bs : List Byte) : (s.writeBytes a bs).fb = s.fb := rfl
@[simp] theorem State.writeBytes_redraw (s : State) (a : Nat) (bs : List Byte) : (s.writeBytes a bs).redraw = s.redraw := rfl
@[simp] theorem State.writeBytes_status (s : State) (a : Nat) (bs : List Byte) : (s.writeBytes a bs).status = s.status := rfl
@[simp] theorem State.writeBytes_draws (s : State) (a : Nat) (bs : List Byte) : (s.writeBytes a bs).draws = s.draws := rfl

/-! ### `setFlagThen` -/

@[simp] theorem State.setFlagThen_mem (s : State) (f : Byte) (x : Reg) (b : Byte) : (s.setFlagThen f x b).mem = s.mem := rfl
@[simp] theorem State.setFlagThen_i (s : State) (f : Byte) (x : Reg) (b : Byte) : (s.setFlagThen f x b).i = s.i := rfl
@[simp] theorem State.setFlagThen_pc (s : State) (f : Byte) (x : Reg) (b : Byte) : (s.setFlagThen f x b).pc = s.pc := rfl
@[simp] theorem State.setFlagThen_stack (s : State) (f : Byte) (x : Reg) (b : Byte) : (s.setFlagThen f x b).stack = s.stack := rfl
@[simp] theorem State.setFlagThen_sp (s : State) (f : Byte) (x : Reg) (b : Byte) : (s.setFlagThen f x b).sp = s.sp := rfl
@[simp] theorem State.setFlagThen_dt (s : State) (f : Byte) (x : Reg) (b : Byte) : (s.setFlagThen f x b).dt = s.dt := rfl
@[simp] theorem State.setFlagThen_st (s : State) (f : Byte) (x : Reg) (b : Byte) : (s.setFlagThen f x b).st = s.st := rfl
@[simp] theorem State.setFlagThen_keys (s : State) (f : Byte) (x : Reg) (b : Byte) : (s.setFlagThen f x b).keys = s.keys := rfl
@[simp] theorem State.setFlagThen_fb (s : State) (f : Byte) (x : Reg) (b : Byte) : (s.setFlagThen f x b).fb = s.fb := rfl
@[simp] theorem State.setFlagThen_redraw (s : State) (f : Byte) (x : Reg) (b : Byte) : (s.setFlagThen f x b).redraw = s.redraw := rfl
@[simp] theorem State.setFlagThen_status (s : State) (f : Byte) (x : Reg) (b : Byte) : (s.setFlagThen f x b).status = s.status := rfl
@[simp] theorem State.setFlagThen_draws (s : State) (f : Byte) (x : Reg) (b : Byte) : (s.setFlagThen f x b).draws = s.draws := rfl

/-! ### `takeKey` -/

@[simp] theorem State.takeKey_pc (s : State) (p : Params) (x : Reg) : (s.takeKey p x).pc = s.pc + 2 := rfl
@[simp] theorem State.takeKey_mem (s : State) (p : Params) (x : Reg) : (s.takeKey p x).mem = s.mem := rfl
@[simp] theorem State.takeKey_i (s : State) (p : Params) (x : Reg) : (s.takeKey p x).i = s.i := rfl
@[simp] theorem State.takeKey_stack (s : State) (p : Params) (x : Reg) : (s.takeKey p x).stack = s.stack := rfl
@[simp] theorem State.takeKey_sp (s : State) (p : Params) (x : Reg) : (s.takeKey p x).sp = s.sp := rfl
@[simp] theorem State.takeKey_dt (s : State) (p : Params) (x : Reg) : (s.takeKey p x).dt = s.dt := rfl
@[simp] theorem State.takeKey_st (s : State) (p : Params) (x : Reg) : (s.takeKey p x).st = s.st := rfl
@[simp] theorem State.takeKey_keys (s : State) (p : Params) (x : Reg) : (s.takeKey p x).keys = s.keys := rfl
@[simp] theorem State.takeKey_fb (s : State) (p : Params) (x : Reg) : (s.takeKey p x).fb = s.fb := rfl
@[simp] theorem State.takeKey_redraw (s : State) (p : Params) (x : Reg) : (s.takeKey p x).redraw = s.redraw := rfl
@[simp] theorem State.takeKey_status (s : State) (p : Params) (x : Reg) : (s.takeKey p x).status = s.status := rfl
@[simp] theorem State.takeKey_draws (s : State) (p : Params) (x : Reg) : (s.takeKey p x).draws = s.draws := rfl

/-! ### The register file -/

/-- Two register indexes with the same number are the same index. -/
theorem reg_toNat_ne {x y : Reg} (h : x ≠ y) : x.toNat ≠ y.toNat := fun e => h (BitVec.eq_of_toNat_eq e)

@[simp] theorem State.getV_setV_same (s : State) (x : Reg) (b : Byte) : (s.setV x b).getV x = b := by
  simp [State.getV, State.setV]

theorem State.getV_setV_ne (s : State) {x y : Reg} (h : y ≠ x) (b : Byte) : (s.setV x b).getV y = s.getV y := by
  simp [State.getV, State.setV, Vector.getElem_set_ne, (reg_toNat_ne h).symm]

theorem State.getV_setV (s : State) (x y : Reg) (b : Byte) :
    (s.setV x b).getV y = if y = x then b else s.getV y := by
  split
  · subst y; simp
  · exact s.getV_setV_ne ‹_› b

/-- A register read depends on the register file alone. -/
theorem State.getV_congr {s t : State} (h : t.v = s.v) (x : Reg) : t.getV x = s.getV x := by
  simp [State.getV, h]

@[simp] theorem State.getV_jumpTo (s : State) (w : Word) (x : Reg) : (s.jumpTo w).getV x = s.getV x := rfl
@[simp] theorem State.getV_advance (s : State) (x : Reg) : s.advance.getV x = s.getV x := rfl
@[simp] theorem State.getV_skipIf (s : State) (c : Bool) (x : Reg) : (s.skipIf c).getV x = s.getV x :=
  State.getV_congr (s.skipIf_v c) x
@[simp] theorem State.getV_halt (s : State) (r : HaltReason) (x : Reg) : (s.halt r).getV x = s.getV x := rfl
@[simp] theorem State.getV_push (s : State) (w : Word) (x : Reg) : (s.push w).getV x = s.getV x := rfl
@[simp] theorem State.getV_pop (s : State) (x : Reg) : s.pop.getV x = s.getV x := rfl
@[simp] theorem State.getV_writeBytes (s : State) (a : Nat) (bs : List Byte) (x : Reg) :
    (s.writeBytes a bs).getV x = s.getV x := rfl

/-- Flag, then result: the result stands in Vx, the flag in VF unless x = F (41_register_alu.md R140). -/
theorem State.getV_setFlagThen (s : State) (f : Byte) (x : Reg) (b : Byte) (y : Reg) :
    (s.setFlagThen f x b).getV y = if y = x then b else if y = regF then f else s.getV y := by
  simp [State.setFlagThen, State.getV_setV]

@[simp] theorem State.getV_takeKey (s : State) (p : Params) (x y : Reg) :
    (s.takeKey p x).getV y = if y = x then (p.keySelect s.keys).setWidth 8 else s.getV y := by
  simp [State.takeKey, State.getV_setV]

/-! ### Memory reads -/

/-- A byte read depends on the memory alone. -/
theorem State.readByte_congr {s t : State} (h : t.mem = s.mem) (a : Nat) : t.readByte a = s.readByte a := by
  simp [State.readByte, h]

@[simp] theorem State.readByte_setV (s : State) (x : Reg) (b : Byte) (a : Nat) : (s.setV x b).readByte a = s.readByte a := rfl
@[simp] theorem State.readByte_advance (s : State) (a : Nat) : s.advance.readByte a = s.readByte a := rfl
@[simp] theorem State.readByte_jumpTo (s : State) (w : Word) (a : Nat) : (s.jumpTo w).readByte a = s.readByte a := rfl
@[simp] theorem State.readByte_skipIf (s : State) (c : Bool) (a : Nat) : (s.skipIf c).readByte a = s.readByte a :=
  State.readByte_congr (s.skipIf_mem c) a

end Sys2Proof.Machine
end

