-- ==== Sys2Proof/Laws/Ops.lean ====
section
/-! SUPPORT. For each shared operation, one lemma that says everything it can do. -/

namespace Sys2Proof.Machine

/-- Entering a fault always answers a next state, the same one but for its status (60_exceptions.md R273). -/
theorem raise_next {r : HaltReason} {s t : State} (h : raise r s = .next t) : t = s.halt r := by
  simpa [raise] using h.symm

/-- A range-checked access either does its work or takes the Memory fault (20_memory.md R66). -/
theorem withRange_next {k : Nat} {s done t : State} (h : withRange k s done = .next t) :
    (Memory.inRange s.i.toNat k = true ∧ t = done) ∨
    (Memory.inRange s.i.toNat k = false ∧ t = s.halt (.outOfBounds (.memory s.i k))) := by
  unfold withRange at h
  split at h
  · next hr => exact .inl ⟨hr, by simpa using h.symm⟩
  · next hr => exact .inr ⟨by simpa using hr, raise_next h⟩

theorem withRange_of_inRange {k : Nat} {s done : State} (h : k = 0 ∨ s.i.toNat + k ≤ memSize) :
    withRange k s done = .next done := by
  simp [withRange, (Memory.inRange_iff _ _).mpr h]

theorem withRange_of_not_inRange {k : Nat} {s done : State} (hk : 0 < k) (h : memSize < s.i.toNat + k) :
    withRange k s done = raise (.outOfBounds (.memory s.i k)) s := by
  have : ¬ Memory.inRange s.i.toNat k = true := by rw [Memory.inRange_iff]; omega
  simp [withRange, this]

/-! ### The stack -/

theorem State.stackEntry_congr {s t : State} (h : t.stack = s.stack) (k : Nat) : t.stackEntry k = s.stackEntry k := by
  simp [State.stackEntry, h]

@[simp] theorem State.stackEntry_pop (s : State) (k : Nat) : s.pop.stackEntry k = s.stackEntry k := rfl
@[simp] theorem State.stackEntry_jumpTo (s : State) (w : Word) (k : Nat) : (s.jumpTo w).stackEntry k = s.stackEntry k := rfl

/-- A push writes the entry at the old depth and no other (10_state.md R27). -/
theorem State.stackEntry_push (s : State) (w : Word) (k : Nat) (h : s.sp.val < stackDepth) :
    (s.push w).stackEntry k = if k = s.sp.val then w else s.stackEntry k := by
  simp only [State.stackEntry, State.push, Vector.getElem?_setIfInBounds]
  split <;> split <;> first | rfl | omega

theorem State.push_sp (s : State) (w : Word) (h : s.sp.val < stackDepth) : (s.push w).sp.val = s.sp.val + 1 := by
  simp only [State.push, Fin.ofNat, stackDepth] at h ⊢
  omega

theorem State.pop_sp (s : State) : s.pop.sp.val = s.sp.val - 1 := by
  have := s.sp.isLt
  simp only [State.pop, Fin.ofNat, stackDepth] at this ⊢
  omega

/-! ### Register lists -/

/-- The block load writes V0..V(k-1) and no other register (42_index_memory.md R185). -/
theorem loadRegs_getElem (m : Memory) (a : Nat) : ∀ (k : Nat) (v : Vector Byte 16) (j : Nat) (h : j < 16),
    (loadRegs m a k v)[j] = if j < k then m.read (a + j) else v[j] := by
  intro k
  induction k with
  | zero => intro v j h; simp [loadRegs]
  | succ k ih =>
    intro v j h
    rw [loadRegs, Vector.getElem_setIfInBounds h]
    split
    · next e => subst e; simp
    · next e => rw [ih]; split <;> split <;> first | rfl | omega

@[simp] theorem regList_length (s : State) (x : Reg) : (regList s x).length = x.toNat + 1 := by
  have := x.isLt
  simp only [regList, List.length_take, Vector.length_toList]
  omega

/-- The j-th byte of a block store is Vj (42_index_memory.md R184). -/
theorem regList_getElem (s : State) (x j : Reg) (h : j.toNat < (regList s x).length) : (regList s x)[j.toNat] = s.getV j := by
  simp [regList, State.getV]

/-! ### Keys -/

theorem Keys.anyPressed_iff (keys : Keys) : keys.anyPressed = true ↔ ∃ k, keys.pressed k = true := by
  simp only [Keys.anyPressed, Keys.pressed, List.any_eq_true, id_eq, Vector.mem_toList_iff, exists_eq_right]
  rw [Vector.mem_iff_getElem]
  constructor
  · rintro ⟨j, hj, h⟩
    exact ⟨BitVec.ofNat 4 j, by simpa [Nat.mod_eq_of_lt hj] using h⟩
  · rintro ⟨k, h⟩
    exact ⟨k.toNat, k.isLt, h⟩

/-- A register numbers a key exactly when its value is at most 15, and then the key has its value. -/
theorem keyNumber_eq_some {b : Byte} {k : Reg} : keyNumber b = some k ↔ b.toNat ≤ 15 ∧ k.toNat = b.toNat := by
  simp only [keyNumber]
  split
  · simp; omega
  · next h =>
    rw [Option.some.injEq, ← BitVec.toNat_inj, BitVec.toNat_setWidth, Nat.mod_eq_of_lt (by omega)]
    omega

theorem keyNumber_eq_none {b : Byte} : keyNumber b = none ↔ 15 < b.toNat := by
  simp only [keyNumber]
  split <;> simp <;> omega

/-- A key skip either skips or not on the numbered key, or takes the KeyIndex fault (44_timers_keypad.md R240). -/
theorem skipOnKey_next {want : Bool} {x : Reg} {s t : State} (h : skipOnKey want x s = .next t) :
    (∃ k, keyNumber (s.getV x) = some k ∧ t = s.skipIf (s.keys.pressed k == want)) ∨
    (keyNumber (s.getV x) = none ∧ t = s.halt (.outOfBounds (.keyIndex (s.getV x)))) := by
  unfold skipOnKey at h
  split at h
  · next e => exact .inr ⟨e, raise_next h⟩
  · next k e => exact .inl ⟨k, e, by simpa using h.symm⟩

/-- A wait for a key either takes one or waits (44_timers_keypad.md R242). -/
theorem waitKey_next {p : Params} {x : Reg} {s t : State} (h : waitKey p x s = .next t) :
    (s.keys.anyPressed = true ∧ t = s.takeKey p x) ∨
    (s.keys.anyPressed = false ∧ t = { s with status := .awaitingKey x }) := by
  unfold waitKey at h
  split at h
  · next e => exact .inl ⟨e, by simpa using h.symm⟩
  · next e => exact .inr ⟨by simpa using e, by simpa using h.symm⟩

/-! ### The cycle -/

/-- What a cycle in status Running answers (30_encoding.md R97, 60_exceptions.md R275). -/
theorem runningCycle_eq (p : Params) (run : Instr → State → Result) (s : State) :
    (s.pc.toNat > 0xFFE ∧ runningCycle p run s = .next (s.halt (.outOfBounds (.fetch s.pc)))) ∨
    (s.pc.toNat ≤ 0xFFE ∧ decodeWith p.loadSubcode (fetchWord s) = none ∧
      runningCycle p run s = .next (s.halt (.unknownOpcode (fetchWord s)))) ∨
    (∃ i, s.pc.toNat ≤ 0xFFE ∧ decodeWith p.loadSubcode (fetchWord s) = some i ∧ runningCycle p run s = run i s) := by
  unfold runningCycle fetchInRange
  by_cases h : s.pc.toNat ≤ 0xFFE
  · cases hd : decodeWith p.loadSubcode (fetchWord s) with
    | none => exact .inr (.inl ⟨h, rfl, by simp [h, raise]⟩)
    | some i => exact .inr (.inr ⟨i, h, rfl, by simp [h]⟩)
  · exact .inl ⟨by omega, by simp [h, raise]⟩

theorem runCycle_running {p : Params} {run : Instr → State → Result} {s : State} (h : s.status = .running) :
    runCycle p run s = runningCycle p run s := by
  simp [runCycle, h]

theorem runCycle_awaitingKey {p : Params} {run : Instr → State → Result} {s : State} {x : Reg}
    (h : s.status = .awaitingKey x) : runCycle p run s = .next (awaitKeyStep p x s) := by
  simp [runCycle, h]

theorem runCycle_halted {p : Params} {run : Instr → State → Result} {s : State} {r : HaltReason}
    (h : s.status = .halted r) : runCycle p run s = .next s := by
  simp [runCycle, h]

/-- A waiting cycle changes nothing, or takes a key and runs on (44_timers_keypad.md R243). -/
theorem awaitKeyStep_eq (p : Params) (x : Reg) (s : State) :
    (s.keys.anyPressed = true ∧ awaitKeyStep p x s = { (s.takeKey p x) with status := .running }) ∨
    (s.keys.anyPressed = false ∧ awaitKeyStep p x s = s) := by
  unfold awaitKeyStep
  cases h : s.keys.anyPressed <;> simp

/-- `exec` is `execWith` at the default parameters. -/
theorem execWith_default (i : Instr) (s : State) : execWith defaultParams i s = exec i s := by
  cases i <;> rfl

/-! ### Placing a word -/

/-- A placed word is the next word fetched (20_memory.md R61, R73). -/
theorem fetchWord_placeWord (s : State) (w : Word) : fetchWord (placeWord s w) = w := by
  have h0 := Memory.read_writeBytes_inside [wordHigh w, wordLow w] s.mem (placeWord s w).pc.toNat 0 (by simp)
  have h1 := Memory.read_writeBytes_inside [wordHigh w, wordLow w] s.mem (placeWord s w).pc.toNat 1 (by simp)
  have hm : (placeWord s w).mem = s.mem.writeBytes (placeWord s w).pc.toNat [wordHigh w, wordLow w] := rfl
  rw [Nat.add_zero] at h0
  rw [fetchWord, State.readByte, State.readByte, hm, h0, h1]
  exact wordOfBytes_split w

theorem placeWord_running (s : State) (w : Word) : (placeWord s w).status = .running := rfl

theorem placeWord_pc (s : State) (w : Word) : (placeWord s w).pc.toNat ≤ 0xFFE := by
  simp only [placeWord]
  split
  · next h => simpa [fetchInRange] using h
  · decide

end Sys2Proof.Machine
end

