-- ==== Sys2Proof/Laws/PerInstr.lean ====
section
/-! SUPPORT. A statement for every instruction, one lemma per constructor: the word the encoder gives it meets the mask and
match of its own row of the opcode map, whichever byte LOAD_SUBCODE is (30_encoding.md R86, R91). -/

namespace Sys2Proof.Laws.RowMatch

/-- The row of the opcode map with the instruction's number selects the instruction's word. -/
def Statement (i : Instr) : Prop :=
  ∀ sub : LoadSubcode, ∃ row ∈ opcodeMap sub, row.number = i.rowNumber ∧ row.selects (encodeWith sub i) = true

/-- A row with mask 0xF000 selects its class's words. -/
theorem selectsA (k : Nat) (c : Nibble) (nnn : Addr) :
    OpcodeRow.selects ⟨k, encodeA c 0, 0xF000⟩ (encodeA c nnn) = true :=
  beq_iff_eq.mpr (encodeA_mask c nnn)

/-- A row with mask 0xF000 selects its class's words, written with x and nn. -/
theorem selectsXB (k : Nat) (c : Nibble) (x : Reg) (b : Byte) :
    OpcodeRow.selects ⟨k, encodeA c 0, 0xF000⟩ (encodeXB c x b) = true := selectsA k c (x ++ b)

/-- A row with mask 0xF0FF selects the words with its class and low byte. -/
theorem selectsXS (k : Nat) (c : Nibble) (x : Reg) (b : Byte) :
    OpcodeRow.selects ⟨k, encodeXB c 0 b, 0xF0FF⟩ (encodeXB c x b) = true :=
  beq_iff_eq.mpr (encodeXB_mask c x b)

/-- A row with mask 0xF00F selects the words with its class and low nibble. -/
theorem selectsXY (k : Nat) (c : Nibble) (x y : Reg) (n : Nibble) :
    OpcodeRow.selects ⟨k, encodeXY c 0 0 n, 0xF00F⟩ (encodeXY c x y n) = true :=
  beq_iff_eq.mpr (encodeXY_mask c x y n)

theorem cls : Statement .cls := fun sub => ⟨⟨1, 0x00E0, 0xFFFF⟩, by cases sub <;> decide, rfl, by cases sub <;> decide⟩
theorem ret : Statement .ret := fun sub => ⟨⟨2, 0x00EE, 0xFFFF⟩, by cases sub <;> decide, rfl, by cases sub <;> decide⟩
theorem jp (nnn : Addr) : Statement (.jp nnn) :=
  fun sub => ⟨⟨3, encodeA 0x1 0, 0xF000⟩, by cases sub <;> decide, rfl, selectsA 3 0x1 nnn⟩
theorem call (nnn : Addr) : Statement (.call nnn) :=
  fun sub => ⟨⟨4, encodeA 0x2 0, 0xF000⟩, by cases sub <;> decide, rfl, selectsA 4 0x2 nnn⟩
theorem seImm (x : Reg) (nn : Byte) : Statement (.seImm x nn) :=
  fun sub => ⟨⟨5, encodeA 0x3 0, 0xF000⟩, by cases sub <;> decide, rfl, selectsXB 5 0x3 x nn⟩
theorem sneImm (x : Reg) (nn : Byte) : Statement (.sneImm x nn) :=
  fun sub => ⟨⟨6, encodeA 0x4 0, 0xF000⟩, by cases sub <;> decide, rfl, selectsXB 6 0x4 x nn⟩
theorem seReg (x y : Reg) : Statement (.seReg x y) :=
  fun sub => ⟨⟨7, encodeXY 0x5 0 0 0x0, 0xF00F⟩, by cases sub <;> decide, rfl, selectsXY 7 0x5 x y 0x0⟩
theorem ldImm (x : Reg) (nn : Byte) : Statement (.ldImm x nn) :=
  fun sub => ⟨⟨8, encodeA 0x6 0, 0xF000⟩, by cases sub <;> decide, rfl, selectsXB 8 0x6 x nn⟩
theorem addImm (x : Reg) (nn : Byte) : Statement (.addImm x nn) :=
  fun sub => ⟨⟨9, encodeA 0x7 0, 0xF000⟩, by cases sub <;> decide, rfl, selectsXB 9 0x7 x nn⟩
theorem ldReg (x y : Reg) : Statement (.ldReg x y) :=
  fun sub => ⟨⟨10, encodeXY 0x8 0 0 0x0, 0xF00F⟩, by cases sub <;> decide, rfl, selectsXY 10 0x8 x y 0x0⟩
theorem orReg (x y : Reg) : Statement (.orReg x y) :=
  fun sub => ⟨⟨11, encodeXY 0x8 0 0 0x1, 0xF00F⟩, by cases sub <;> decide, rfl, selectsXY 11 0x8 x y 0x1⟩
theorem andReg (x y : Reg) : Statement (.andReg x y) :=
  fun sub => ⟨⟨12, encodeXY 0x8 0 0 0x2, 0xF00F⟩, by cases sub <;> decide, rfl, selectsXY 12 0x8 x y 0x2⟩
theorem xorReg (x y : Reg) : Statement (.xorReg x y) :=
  fun sub => ⟨⟨13, encodeXY 0x8 0 0 0x3, 0xF00F⟩, by cases sub <;> decide, rfl, selectsXY 13 0x8 x y 0x3⟩
theorem addReg (x y : Reg) : Statement (.addReg x y) :=
  fun sub => ⟨⟨14, encodeXY 0x8 0 0 0x4, 0xF00F⟩, by cases sub <;> decide, rfl, selectsXY 14 0x8 x y 0x4⟩
theorem subReg (x y : Reg) : Statement (.subReg x y) :=
  fun sub => ⟨⟨15, encodeXY 0x8 0 0 0x5, 0xF00F⟩, by cases sub <;> decide, rfl, selectsXY 15 0x8 x y 0x5⟩
theorem shr (x y : Reg) : Statement (.shr x y) :=
  fun sub => ⟨⟨16, encodeXY 0x8 0 0 0x6, 0xF00F⟩, by cases sub <;> decide, rfl, selectsXY 16 0x8 x y 0x6⟩
theorem subnReg (x y : Reg) : Statement (.subnReg x y) :=
  fun sub => ⟨⟨17, encodeXY 0x8 0 0 0x7, 0xF00F⟩, by cases sub <;> decide, rfl, selectsXY 17 0x8 x y 0x7⟩
theorem shl (x y : Reg) : Statement (.shl x y) :=
  fun sub => ⟨⟨18, encodeXY 0x8 0 0 0xe, 0xF00F⟩, by cases sub <;> decide, rfl, selectsXY 18 0x8 x y 0xe⟩
theorem sneReg (x y : Reg) : Statement (.sneReg x y) :=
  fun sub => ⟨⟨19, encodeXY 0x9 0 0 0x0, 0xF00F⟩, by cases sub <;> decide, rfl, selectsXY 19 0x9 x y 0x0⟩
theorem ldI (nnn : Addr) : Statement (.ldI nnn) :=
  fun sub => ⟨⟨20, encodeA 0xa 0, 0xF000⟩, by cases sub <;> decide, rfl, selectsA 20 0xa nnn⟩
theorem jpV0 (nnn : Addr) : Statement (.jpV0 nnn) :=
  fun sub => ⟨⟨21, encodeA 0xb 0, 0xF000⟩, by cases sub <;> decide, rfl, selectsA 21 0xb nnn⟩
theorem rnd (x : Reg) (nn : Byte) : Statement (.rnd x nn) :=
  fun sub => ⟨⟨22, encodeA 0xc 0, 0xF000⟩, by cases sub <;> decide, rfl, selectsXB 22 0xc x nn⟩
theorem drw (x y : Reg) (n : Nibble) : Statement (.drw x y n) :=
  fun sub => ⟨⟨23, encodeA 0xd 0, 0xF000⟩, by cases sub <;> decide, rfl, selectsA 23 0xd (x ++ (y ++ n))⟩
theorem skp (x : Reg) : Statement (.skp x) :=
  fun sub => ⟨⟨24, encodeXB 0xe 0 0x9e, 0xF0FF⟩, by cases sub <;> decide, rfl, selectsXS 24 0xe x 0x9e⟩
theorem sknp (x : Reg) : Statement (.sknp x) :=
  fun sub => ⟨⟨25, encodeXB 0xe 0 0xa1, 0xF0FF⟩, by cases sub <;> decide, rfl, selectsXS 25 0xe x 0xa1⟩
theorem ldVxDT (x : Reg) : Statement (.ldVxDT x) :=
  fun sub => ⟨⟨26, encodeXB 0xf 0 0x7, 0xF0FF⟩, by cases sub <;> decide, rfl, selectsXS 26 0xf x 0x7⟩
theorem ldVxK (x : Reg) : Statement (.ldVxK x) :=
  fun sub => ⟨⟨27, encodeXB 0xf 0 0xa, 0xF0FF⟩, by cases sub <;> decide, rfl, selectsXS 27 0xf x 0xa⟩
theorem ldDTVx (x : Reg) : Statement (.ldDTVx x) :=
  fun sub => ⟨⟨28, encodeXB 0xf 0 0x15, 0xF0FF⟩, by cases sub <;> decide, rfl, selectsXS 28 0xf x 0x15⟩
theorem ldSTVx (x : Reg) : Statement (.ldSTVx x) :=
  fun sub => ⟨⟨29, encodeXB 0xf 0 0x18, 0xF0FF⟩, by cases sub <;> decide, rfl, selectsXS 29 0xf x 0x18⟩
theorem addI (x : Reg) : Statement (.addI x) :=
  fun sub => ⟨⟨30, encodeXB 0xf 0 0x1e, 0xF0FF⟩, by cases sub <;> decide, rfl, selectsXS 30 0xf x 0x1e⟩
theorem ldF (x : Reg) : Statement (.ldF x) :=
  fun sub => ⟨⟨31, encodeXB 0xf 0 0x29, 0xF0FF⟩, by cases sub <;> decide, rfl, selectsXS 31 0xf x 0x29⟩
theorem ldB (x : Reg) : Statement (.ldB x) :=
  fun sub => ⟨⟨32, encodeXB 0xf 0 0x33, 0xF0FF⟩, by cases sub <;> decide, rfl, selectsXS 32 0xf x 0x33⟩
theorem ldMemVx (x : Reg) : Statement (.ldMemVx x) :=
  fun sub => ⟨⟨33, encodeXB 0xf 0 0x55, 0xF0FF⟩, by cases sub <;> decide, rfl, selectsXS 33 0xf x 0x55⟩
theorem ldVxMem (x : Reg) : Statement (.ldVxMem x) :=
  fun sub => ⟨⟨34, encodeXB 0xf 0 sub.byte, 0xF0FF⟩, by cases sub <;> decide, rfl, selectsXS 34 0xf x sub.byte⟩

end Sys2Proof.Laws.RowMatch
end

