-- ==== Sys2Proof/Laws/Safety.lean ====
section
/-! SUPPORT. The vocabulary of frames, part by part, and runs of cycles. -/

namespace Sys2Proof.Machine

/-- A frame is one fact for each part that the list does not name. -/
theorem onlyChanges_iff (parts : List Part) (s t : State) : OnlyChanges parts s t ↔
    (Part.mem ∉ parts → ∀ a, t.readByte a = s.readByte a) ∧ (Part.v ∉ parts → ∀ x, t.getV x = s.getV x) ∧
    (Part.i ∉ parts → t.i = s.i) ∧ (Part.pc ∉ parts → t.pc = s.pc) ∧
    (Part.stack ∉ parts → ∀ k, t.stackEntry k = s.stackEntry k) ∧ (Part.sp ∉ parts → t.sp = s.sp) ∧
    (Part.dt ∉ parts → t.dt = s.dt) ∧ (Part.st ∉ parts → t.st = s.st) ∧ (Part.keys ∉ parts → t.keys = s.keys) ∧
    (Part.fb ∉ parts → t.fb = s.fb) ∧ (Part.redraw ∉ parts → t.redraw = s.redraw) ∧
    (Part.status ∉ parts → t.status = s.status) ∧ (Part.draws ∉ parts → t.draws = s.draws) := by
  constructor
  · intro h
    exact ⟨h .mem, h .v, h .i, h .pc, h .stack, h .sp, h .dt, h .st, h .keys, h .fb, h .redraw, h .status, h .draws⟩
  · rintro ⟨h1, h2, h3, h4, h5, h6, h7, h8, h9, h10, h11, h12, h13⟩ p hp
    cases p
    exacts [h1 hp, h2 hp, h3 hp, h4 hp, h5 hp, h6 hp, h7 hp, h8 hp, h9 hp, h10 hp, h11 hp, h12 hp, h13 hp]

/-- Naming more parts weakens a frame. -/
theorem OnlyChanges.mono {ps qs : List Part} {s t : State} (h : OnlyChanges ps s t) (hs : ∀ p ∈ ps, p ∈ qs) :
    OnlyChanges qs s t := fun p hp => h p (fun hm => hp (hs p hm))

theorem OnlyChanges.refl (ps : List Part) (s : State) : OnlyChanges ps s s :=
  (onlyChanges_iff ps s s).mpr (by simp)

/-- A fault changes status alone (60_exceptions.md R273). -/
theorem onlyChanges_halt (s : State) (r : HaltReason) : OnlyChanges [.status] s (s.halt r) :=
  (onlyChanges_iff _ _ _).mpr (by simp [State.readByte, State.stackEntry])

/-! ### Sessions and runs of cycles -/

/-- The first event of a session answers a next state when the session does, and the session goes on from it. -/
theorem runEvents_cons_eq_next {p : Params} {e : Event} {es : List Event} {s t : State} :
    runEvents p (e :: es) s = .next t ↔ ∃ u, applyEvent p e s = .next u ∧ runEvents p es u = .next t := by
  rw [runEvents]
  cases applyEvent p e s <;> simp

/-- A session of two parts runs the second from where the first ended. -/
theorem runEvents_append_eq_next {p : Params} {fs : List Event} {t : State} : ∀ {es : List Event} {s : State},
    runEvents p (es ++ fs) s = .next t ↔ ∃ u, runEvents p es s = .next u ∧ runEvents p fs u = .next t := by
  intro es
  induction es with
  | nil => intro s; simp [runEvents]
  | cons e es ih =>
    intro s
    simp only [List.cons_append, runEvents_cons_eq_next, ih]
    exact ⟨fun ⟨v, hv, u, hu, h⟩ => ⟨u, ⟨v, hv, hu⟩, h⟩, fun ⟨u, ⟨v, hv, hu⟩, h⟩ => ⟨v, hv, u, hu, h⟩⟩

/-- A fault is surfaced, and nothing else is (60_exceptions.md R274). -/
theorem surface_eq_next {o : Result} {t : State} : surface o = .next t ↔ o = .next t ∧ ∀ r, t.status ≠ .halted r := by
  unfold surface
  split
  · next u =>
    split
    · next r h => exact ⟨fun e => (nomatch e), fun e => absurd h (by cases e.1; exact e.2 r)⟩
    · next h => exact ⟨fun e => ⟨e, by cases e; exact h⟩, And.left⟩
  · next h => exact ⟨fun e => absurd e (h t), fun e => absurd e.1 (h t)⟩

/-- The driver of a session is told of no fault when none of its events ends Halted (60_exceptions.md R274). -/
theorem driveEvents_cons_eq_next {p : Params} {e : Event} {es : List Event} {s t : State} :
    driveEvents p (e :: es) s = .next t ↔
      ∃ u, applyEvent p e s = .next u ∧ (∀ r, u.status ≠ .halted r) ∧ driveEvents p es u = .next t := by
  rw [driveEvents]
  cases h : surface (applyEvent p e s) with
  | next u => obtain ⟨h1, h2⟩ := surface_eq_next.mp h; simp [h1, h2]
  | _ => simp only [reduceCtorEq, false_iff]; rintro ⟨u, h1, h2, -⟩; rw [surface_eq_next.mpr ⟨h1, h2⟩] at h; cases h

@[simp] theorem driveEvents_nil (p : Params) (s : State) : driveEvents p [] s = surface (.next s) := rfl

@[simp] theorem cycles_zero (p : Params) (s : State) : cycles p 0 s = .next s := rfl

/-- The first cycle of a run answers a next state when the run does, and the run goes on from it. -/
theorem cycles_succ_eq_next {p : Params} {n : Nat} {s t : State} :
    cycles p (n + 1) s = .next t ↔ ∃ u, stepWith p s = .next u ∧ cycles p n u = .next t :=
  runEvents_cons_eq_next

/-- A run of `m + n` cycles has a state after `m` cycles, and goes on from it. -/
theorem cycles_add_eq_next {p : Params} {m n : Nat} {s t : State} :
    cycles p (m + n) s = .next t ↔ ∃ u, cycles p m s = .next u ∧ cycles p n u = .next t := by
  simp only [cycles, List.replicate_add]
  exact runEvents_append_eq_next

/-- A state whose cycle changes nothing stays for any number of cycles. -/
theorem cycles_fixed {p : Params} {s : State} (h : stepWith p s = .next s) (n : Nat) : cycles p n s = .next s := by
  induction n with
  | zero => rfl
  | succ n ih => exact cycles_succ_eq_next.mpr ⟨s, h, ih⟩

/-- A state that `n` cycles come back to is come back to again and again. -/
theorem cycles_recur {p : Params} {s : State} {n : Nat} (h : cycles p n s = .next s) (k : Nat) :
    cycles p (k * n) s = .next s := by
  induction k with
  | zero => rw [Nat.zero_mul]; rfl
  | succ k ih => rw [Nat.succ_mul]; exact cycles_add_eq_next.mpr ⟨s, ih, h⟩

end Sys2Proof.Machine
end

