-- ==== Sys2Proof/Tests/Slice0.lean ====
section
/-! SUPPORT. Tests of one step each, their expected results taken from the spec's examples and test vectors
(95_test_vectors.md S and T numbers), the smoke tests of the well-formedness checks, and a witness for the hypotheses of
every statement that has them. -/

namespace Sys2Proof.Tests

open Sys2Proof.Machine Sys2Proof.Claims

/-- What `f` reads in the next state; `none` when there is none. -/
def got {α : Type} (f : State → α) : Result → Option α
  | .next t => some (f t)
  | _ => none

theorem next_of_got {o : Result} {t : State} (h : got id o = some t) : o = .next t := by
  cases o <;> simp_all [got]

/-- The reset state with pc = 0x200 and the registers and I of a test. -/
def withRegs (rs : List (Reg × Byte)) (i : Word) : State :=
  { rs.foldl (fun s r => s.setV r.1 r.2) State.reset with i := i }

/-- Store bytes of a test. -/
def put (s : State) (a : Nat) (bs : List Byte) : State := s.writeBytes a bs

/-- The halting reason of a state. -/
def reason (t : State) : Option HaltReason :=
  match t.status with
  | .halted r => some r
  | _ => none

/-- Parameters with BCD_MODE = reference, LOAD_SUBCODE = 0x64 and every draw 0xA7. -/
def otherParams : Params :=
  { defaultParams with bcdMode := .reference, loadSubcode := .x64, random := fun _ => 0xA7 }

/-! ### Well-formedness: an ill-formed word for each check is refused -/

-- T6: class 0 needs all 16 bits
theorem test_wf_class0 : wordWellFormed .x65 0x0000 = false ∧ wordWellFormed .x65 0x0123 = false ∧
    wordWellFormed .x65 0x00E1 = false ∧ wordWellFormed .x65 0x00FF = false ∧ wordWellFormed .x65 0x00E0 = true := by decide
-- T7: classes 5 and 9 need a zero low nibble
theorem test_wf_class5_9 : wordWellFormed .x65 0x5121 = false ∧ wordWellFormed .x65 0x912F = false ∧
    wordWellFormed .x65 0x5120 = true := by decide
-- T8: class 8 needs a listed low nibble
theorem test_wf_class8 : wordWellFormed .x65 0x8008 = false ∧ wordWellFormed .x65 0x800F = false ∧
    wordWellFormed .x65 0x812D = false ∧ wordWellFormed .x65 0x812E = true := by decide
-- T9: classes E and F need a listed low byte
theorem test_wf_classE_F : wordWellFormed .x65 0xE000 = false ∧ wordWellFormed .x65 0xE19F = false ∧
    wordWellFormed .x65 0xF000 = false ∧ wordWellFormed .x65 0xF0FF = false ∧ wordWellFormed .x65 0xE19E = true := by decide
-- T9, T10: LOAD_SUBCODE
theorem test_wf_loadSubcode : wordWellFormed .x65 0xF064 = false ∧ wordWellFormed .x65 0xF065 = true ∧
    wordWellFormed .x64 0xF065 = false ∧ wordWellFormed .x64 0xF064 = true := by decide
-- every instruction has its row
theorem test_wf_instr : Instr.wellFormed .x65 (.ldVxMem 2) = true ∧ Instr.wellFormed .x64 .cls = true := by decide

/-! ### Decoding: a word written out from the encoding of every constructor (30_encoding.md R84, R91) -/

theorem test_decode_controlFlow :
    decode 0b0000000011101110 = some .ret ∧ decode 0b0001001000110100 = some (.jp 0x234) ∧
    decode 0b0010101010111100 = some (.call 0xABC) ∧ decode 0b0011001101000010 = some (.seImm 3 0x42) ∧
    decode 0b0100000000000001 = some (.sneImm 0 1) ∧ decode 0b0101000100100000 = some (.seReg 1 2) ∧
    decode 0b1001000100100000 = some (.sneReg 1 2) ∧ decode 0b1011001100000000 = some (.jpV0 0x300) := by decide
theorem test_decode_registerAlu :
    decode 0b0110000000000101 = some (.ldImm 0 5) ∧ decode 0b0111000000000011 = some (.addImm 0 3) ∧
    decode 0b1000000100100000 = some (.ldReg 1 2) ∧ decode 0b1000000100100001 = some (.orReg 1 2) ∧
    decode 0b1000000100100010 = some (.andReg 1 2) ∧ decode 0b1000000100100011 = some (.xorReg 1 2) ∧
    decode 0b1000000100100100 = some (.addReg 1 2) ∧ decode 0b1000000100100101 = some (.subReg 1 2) ∧
    decode 0b1000000110010110 = some (.shr 1 9) ∧ decode 0b1000000100100111 = some (.subnReg 1 2) ∧
    decode 0b1000000100001110 = some (.shl 1 0) ∧ decode 0b1100001100001111 = some (.rnd 3 0x0F) := by decide
theorem test_decode_indexMemory :
    decode 0b1010001011110000 = some (.ldI 0x2F0) ∧ decode 0b1111001000011110 = some (.addI 2) ∧
    decode 0b1111000000101001 = some (.ldF 0) ∧ decode 0b1111000100110011 = some (.ldB 1) ∧
    decode 0b1111001001010101 = some (.ldMemVx 2) ∧ decode 0b1111001001100101 = some (.ldVxMem 2) := by decide
-- T2 for Dxyn
theorem test_decode_display : decode 0b0000000011100000 = some .cls ∧ decode 0b1101000100101111 = some (.drw 1 2 0xF) := by
  decide
theorem test_decode_timersKeypad :
    decode 0b1110010110011110 = some (.skp 5) ∧ decode 0b1110010110100001 = some (.sknp 5) ∧
    decode 0b1111000100000111 = some (.ldVxDT 1) ∧ decode 0b1111001100001010 = some (.ldVxK 3) ∧
    decode 0b1111000100010101 = some (.ldDTVx 1) ∧ decode 0b1111001000011000 = some (.ldSTVx 2) := by decide
-- T6 to T9 through the decoder itself
theorem test_decode_unknown : decode 0x0000 = none ∧ decode 0x5121 = none ∧ decode 0x800F = none ∧ decode 0x912F = none ∧
    decode 0xE19F = none ∧ decode 0xF064 = none := by decide
-- big-endian bytes; a single byte is no word
theorem test_decodeBytes : decodeBytes [0x12, 0x34, 0x56] = .instr (.jp 0x234) [0x56] ∧
    decodeBytes [0x00, 0x00] = .unknownOpcode 0x0000 ∧ decodeBytes [0x12] = .truncated := by decide
theorem test_decodeTableWord : decodeTableWord 16 0xF265 = some (.ldVxMem 2) ∧ decodeTableWord 16 0x00E1 = none := by decide
theorem test_encode : encode (.shr 1 9) = 0x8196 ∧ encode (.drw 1 2 15) = 0xD12F ∧ encode (.ldVxMem 2) = 0xF265 ∧
    encodeWith .x64 (.ldVxMem 2) = 0xF264 := by decide

/-! ### Fetch and cycle -/

-- T3
theorem test_fetch_last_word : got (·.pc) (step (put { State.reset with pc := 0xFFE } 0xFFE [0x12, 0x00])) = some 0x200 := by
  decide
-- T4
theorem test_fetch_past_end : got (fun t => (reason t, t.pc)) (step { State.reset with pc := 0xFFF }) =
    some (some (.outOfBounds (.fetch 0xFFF)), 0xFFF) := by decide
-- T11
theorem test_fetch_odd : got (fun t => (t.getV 0, t.pc)) (step (put { State.reset with pc := 0x201 } 0x201 [0x60, 0x2A])) =
    some (0x2A, 0x203) := by decide
-- S10, T6
theorem test_unknown_halts : got (fun t => (reason t, t.pc)) (step State.reset) = some (some (.unknownOpcode 0), 0x200) := by
  decide
-- T12
theorem test_halted_stays : got id (step (State.reset.halt (.unknownOpcode 0))) = some (State.reset.halt (.unknownOpcode 0)) := by
  decide
-- a placed word runs from any status
theorem test_withFetchWord : got (fun t => (t.getV 0, t.pc)) (step (State.reset.withFetchWord 16 0x6005)) = some (5, 0x202) ∧
    got (·.getV 0) (step ((State.reset.halt (.unknownOpcode 0)).withFetchWord 16 0x6005)) = some 5 := by decide

/-! ### Control flow -/

-- R111's example, T20
theorem test_ret : got (fun t => (t.pc, t.sp)) (exec .ret ((State.reset.push 0x200).jumpTo 0x300)) = some (0x202, 0) := by decide
theorem test_ret_underflow : got (fun t => (reason t, t.pc)) (exec .ret State.reset) =
    some (some (.outOfBounds .stackUnderflow), 0x200) := by decide
-- R112's example
theorem test_jp : got (·.pc) (exec (.jp 0x234) State.reset) = some 0x234 := by decide
-- S13, T23
theorem test_call : got (fun t => (t.stackEntry 0, t.sp, t.pc)) (exec (.call 0xABC) State.reset) = some (0x200, 1, 0xABC) := by
  decide
theorem test_call_overflow : got (fun t => (reason t, t.sp, t.pc)) (exec (.call 0x400) { State.reset with sp := 16 }) =
    some (some (.outOfBounds .stackOverflow), 16, 0x200) := by decide
-- T26
theorem test_seImm : got (·.pc) (exec (.seImm 3 0x42) (withRegs [(3, 0x42)] 0)) = some 0x204 ∧
    got (·.pc) (exec (.seImm 3 0x43) (withRegs [(3, 0x42)] 0)) = some 0x202 := by decide
-- T27
theorem test_sneImm : got (·.pc) (exec (.sneImm 3 0x42) (withRegs [(3, 0x42)] 0)) = some 0x202 ∧
    got (·.pc) (exec (.sneImm 3 0x43) (withRegs [(3, 0x42)] 0)) = some 0x204 := by decide
-- T28
theorem test_seReg_sneReg : got (·.pc) (exec (.seReg 1 2) (withRegs [(1, 9), (2, 9)] 0)) = some 0x204 ∧
    got (·.pc) (exec (.sneReg 1 2) (withRegs [(1, 9), (2, 9)] 0)) = some 0x202 := by decide
-- T33
theorem test_jpV0 : got (·.pc) (exec (.jpV0 0xFFF) (withRegs [(0, 0xFF)] 0)) = some 0x1100 := by decide

/-! ### Registers and arithmetic -/

-- T40
theorem test_ldImm : got (fun t => (t.getV 1, t.pc)) (exec (.ldImm 1 0xAB) State.reset) = some (0xAB, 0x202) := by decide
-- T41
theorem test_addImm : got (fun t => (t.getV 1, t.getV 0xF)) (exec (.addImm 1 0xFF) (withRegs [(1, 1), (0xF, 0x55)] 0)) =
    some (0x00, 0x55) := by decide
-- T42
theorem test_ldReg : got (·.getV 1) (exec (.ldReg 1 2) (withRegs [(1, 0x10), (2, 0x33)] 0)) = some 0x33 := by decide
-- T43
theorem test_logic : got (·.getV 1) (exec (.orReg 1 2) (withRegs [(1, 0x3C), (2, 0x0F)] 0)) = some 0x3F ∧
    got (·.getV 1) (exec (.andReg 1 2) (withRegs [(1, 0x3C), (2, 0x0F)] 0)) = some 0x0C ∧
    got (·.getV 1) (exec (.xorReg 1 2) (withRegs [(1, 0x3C), (2, 0x0F)] 0)) = some 0x33 := by decide
-- S6, T47
theorem test_addReg_carry : got (fun t => (t.getV 1, t.getV 0xF)) (exec (.addReg 1 2) (withRegs [(1, 0xFF), (2, 1)] 0)) =
    some (0x00, 1) := by decide
theorem test_addReg_vf : got (·.getV 0xF) (exec (.addReg 0xF 2) (withRegs [(0xF, 0xFF), (2, 1)] 0)) = some 0x00 := by decide
-- S7, T50
theorem test_subReg_wraps : got (fun t => (t.getV 1, t.getV 0xF)) (exec (.subReg 1 2) (withRegs [(1, 1), (2, 2)] 0)) =
    some (0xFF, 0) := by decide
theorem test_subReg_equal : got (fun t => (t.getV 1, t.getV 0xF)) (exec (.subReg 1 2) (withRegs [(1, 5), (2, 5)] 0)) =
    some (0x00, 0) := by decide
-- T56, T55
theorem test_shr : got (fun t => (t.getV 1, t.getV 0xF, t.getV 9)) (exec (.shr 1 9) (withRegs [(1, 4), (9, 0xFF)] 0)) =
    some (2, 0, 0xFF) := by decide
theorem test_shr_vf : got (·.getV 0xF) (exec (.shr 0xF 0) (withRegs [(0xF, 1)] 0)) = some 0 := by decide
-- T57, T59
theorem test_subnReg : got (fun t => (t.getV 1, t.getV 0xF)) (exec (.subnReg 1 2) (withRegs [(1, 2), (2, 5)] 0)) =
    some (0x03, 1) := by decide
theorem test_subnReg_wraps : got (fun t => (t.getV 1, t.getV 0xF)) (exec (.subnReg 1 2) (withRegs [(1, 5), (2, 2)] 0)) =
    some (0xFD, 0) := by decide
-- T60, T62
theorem test_shl : got (fun t => (t.getV 1, t.getV 0xF)) (exec (.shl 1 0) (withRegs [(1, 0x81)] 0)) = some (0x02, 1) := by decide
theorem test_shl_vf : got (·.getV 0xF) (exec (.shl 0xF 0) (withRegs [(0xF, 0xFF)] 0)) = some 0xFE := by decide
-- T63
theorem test_rnd : got (fun t => (t.getV 3, t.draws)) (execWith otherParams (.rnd 3 0x0F) State.reset) = some (0x07, 1) := by
  decide

/-! ### Index and memory -/

-- T70
theorem test_ldI : got (fun t => (t.i, t.pc)) (exec (.ldI 0xFFF) State.reset) = some (0x0FFF, 0x202) := by decide
-- T73, T72
theorem test_addI : got (·.i) (exec (.addI 0) (withRegs [(0, 0x0F)] 0xFFF0)) = some 0xFFFF := by decide
theorem test_addI_overflow : got (fun t => (reason t, t.i)) (exec (.addI 0) (withRegs [(0, 1)] 0xFFFF)) =
    some (some (.outOfBounds (.indexOverflow 0x10000)), 0xFFFF) := by decide
-- T74, T75
theorem test_ldF : got (·.i) (exec (.ldF 0) (withRegs [(0, 0x0F)] 0)) = some 0x04B ∧
    got (·.i) (exec (.ldF 0) (withRegs [(0, 0xFF)] 0)) = some 0x4FB := by decide
-- T77 in both modes, T81
theorem test_ldB : got (·.readBytes 0x300 3) (exec (.ldB 0) (withRegs [(0, 255)] 0x300)) = some [2, 5, 5] ∧
    got (·.readBytes 0x300 3) (execWith otherParams (.ldB 0) (withRegs [(0, 255)] 0x300)) = some [2, 5, 2] := by decide
theorem test_ldB_fault : got (fun t => (reason t, t.mem)) (exec (.ldB 0) (withRegs [(0, 255)] 0xFFE)) =
    some (some (.outOfBounds (.memory 0xFFE 3)), []) := by decide
-- R184's example, T83
theorem test_ldMemVx : got (fun t => (t.readBytes 0x400 4, t.i)) (exec (.ldMemVx 2) (withRegs [(0, 1), (1, 2), (2, 3), (3, 4)] 0x400)) =
    some ([1, 2, 3, 0], 0x400) := by decide
theorem test_ldMemVx_fault : got reason (exec (.ldMemVx 1) (withRegs [(0, 1)] 0xFFF)) =
    some (some (.outOfBounds (.memory 0xFFF 2))) := by decide
-- T85, T87
theorem test_ldVxMem_font : got (fun t => [t.getV 0, t.getV 1, t.getV 2, t.getV 3, t.getV 4, t.getV 5])
    (exec (.ldVxMem 4) (withRegs [(5, 0x77)] 0)) = some [0xF0, 0x90, 0x90, 0x90, 0xF0, 0x77] := by decide
theorem test_ldVxMem_fault : got reason (exec (.ldVxMem 0) (withRegs [] 0x1000)) =
    some (some (.outOfBounds (.memory 0x1000 1))) := by decide

/-! ### Display -/

-- T100
theorem test_cls : got (fun t => (t.fb, t.redraw, t.getV 0xF)) (exec .cls { withRegs [(0xF, 9)] 0 with fb := Vector.replicate 32 5 }) =
    some (Pixels.clear, true, 9) := by decide
-- T92: past column 63 a row lands on the next screen row
theorem test_drw_edge : got (fun t => (t.fb.toList.take 3, t.getV 0xF)) (exec (.drw 0 1 1) (put (withRegs [(0, 62)] 0x300) 0x300 [0xFF])) =
    some ([0xC000000000000000, 0x3F, 0], 0) := by decide
-- T99: bit 7 is the leftmost pixel, and a lit pixel collides
theorem test_drw_collision : got (fun t => (t.pixel 0, t.pixel 1, t.getV 0xF, t.redraw))
    (exec (.drw 0 1 1) (put { withRegs [] 0x300 with fb := Pixels.flip Pixels.clear 1 } 0x300 [0xC0])) = some (true, false, 1, true) := by decide

/-! ### Keypad and timers -/

/-- Reset with some keys pressed. -/
def keysDown (ks : List Reg) (s : State) : State := ks.foldl (fun s k => setKey k true s) s

-- T110, T112
theorem test_skp : got (·.pc) (exec (.skp 0) (keysDown [0xA] (withRegs [(0, 0xA)] 0))) = some 0x204 ∧
    got reason (exec (.skp 0) (withRegs [(0, 0x10)] 0)) = some (some (.outOfBounds (.keyIndex 0x10))) := by decide
theorem test_sknp : got (·.pc) (exec (.sknp 0) (keysDown [0xA] (withRegs [(0, 0xA)] 0))) = some 0x202 ∧
    got (·.pc) (exec (.sknp 0) (withRegs [(0, 0xA)] 0)) = some 0x204 := by decide
-- T118
theorem test_ldVxDT : got (·.getV 1) (exec (.ldVxDT 1) { State.reset with dt := 0x3C }) = some 0x3C := by decide
-- T113, T116
theorem test_ldVxK_waits : got (fun t => (t.status, t.pc)) (exec (.ldVxK 3) State.reset) = some (.awaitingKey 3, 0x200) := by decide
theorem test_ldVxK_level : got (fun t => (t.getV 3, t.pc, t.status)) (exec (.ldVxK 3) (keysDown [7] State.reset)) =
    some (7, 0x202, .running) := by decide
-- T115
theorem test_await_lowest : got (fun t => (t.getV 3, t.pc, t.status))
    (step (keysDown [0xB, 4] { State.reset with status := .awaitingKey 3 })) = some (4, 0x202, .running) := by decide
-- T119, T120
theorem test_ldDTVx : got (·.dt) (exec (.ldDTVx 1) (withRegs [(1, 0x3C)] 0)) = some 0x3C := by decide
theorem test_ldSTVx : got (fun t => (t.st, t.soundOn)) (exec (.ldSTVx 2) (withRegs [(2, 5)] 0)) = some (5, true) := by decide

/-! ### The host's operations -/

-- T121, T122
theorem test_tick : (tick { State.reset with dt := 1 }).dt = 0 ∧ (tick State.reset).dt = 0 ∧ (tick State.reset).st = 0 := by decide
-- S1, T130
theorem test_construct : construct defaultParams = State.reset := by decide +kernel
-- S9's ROM
theorem test_load : got (·.readBytes 0x200 6) (applyEvent defaultParams (.load [0x60, 0x05, 0x70, 0x03, 0x00, 0xE0]) State.reset) =
    some [0x60, 0x05, 0x70, 0x03, 0x00, 0xE0] := by decide
-- memory keeps the canonical form when a byte returns to its initial contents
theorem test_memory_canonical : Memory.write (Memory.write [] 0x300 5) 0x300 0 = [] ∧ Memory.write [] 0 0xF0 = [] ∧
    Memory.writeBytes [] 0x300 [1, 2] = [(0x300, 1), (0x301, 2)] := by decide
theorem test_memory_wf_refuses : Memory.wf [(0x301, 1), (0x300, 2)] = false ∧ Memory.wf [(0x300, 0)] = false ∧
    Memory.wf [(4096, 1)] = false ∧ Memory.wf [(0x300, 1), (0x301, 2)] = true := by decide

/-! ### Witnesses: hypotheses that a state and operands meet, each clause at a boundary -/

theorem witness_EncodeDecodeRoundTrip : decodeWith .x65 0x8196 = some (.shr 1 9) ∧
    decodeWith .x64 0xFF64 = some (.ldVxMem 0xF) := by decide
theorem witness_DecoderFollowsOpcodeMap :
    (⟨34, 0xF065, 0xF0FF⟩ ∈ opcodeMap .x65 ∧ (0xFF65 : Word) &&& 0xF0FF = 0xF065) ∧
    (∀ row ∈ opcodeMap .x65, (0x0000 : Word) &&& row.mask ≠ row.value) := by decide
theorem witness_LoadSubcodeSelectsBlockLoad : (∀ x : Reg, (0xF066 : Word) ≠ encodeXB 0xF x 0x65 ∧ (0xF066 : Word) ≠ encodeXB 0xF x 0x64) ∧
    (∀ x : Reg, (0xF063 : Word) ≠ encodeXB 0xF x 0x65 ∧ (0xF063 : Word) ≠ encodeXB 0xF x 0x64) := by decide

/-- The last fetchable word holds `1200`. -/
def lastWord : State := put { State.reset with pc := 0xFFE } 0xFFE [0x12, 0x00]

theorem witness_StepRunsDecodedInstruction : lastWord.status = .running ∧ lastWord.pc.toNat ≤ 0xFFE ∧
    decode (lastWord.readByte lastWord.pc.toNat ++ lastWord.readByte (lastWord.pc.toNat + 1)) = some (.jp 0x200) := by decide
theorem witness_PlacedWordIsExecuted : decode 0x6005 = some (.ldImm 0 5) := by decide
theorem witness_UnknownOpcodeHalts : State.reset.status = .running ∧ State.reset.pc.toNat ≤ 0xFFE ∧
    ∀ row ∈ opcodeMap defaultParams.loadSubcode, fetchWord State.reset &&& row.mask ≠ row.value := by decide
theorem witness_FetchBeyondMemoryHalts :
    (State.status { State.reset with pc := 0xFFF } = .running ∧ (0xFFF : Word).toNat > 0xFFE) ∧
    (lastWord.status = .running ∧ lastWord.pc.toNat ≤ 0xFFE ∧ (got (·.pc) (stepWith defaultParams lastWord)).isSome) := by decide

/-- Halted on an unknown word. -/
def haltedState : State := State.reset.halt (.unknownOpcode 0)

theorem witness_HaltedIsTerminal : haltedState.status = .halted (.unknownOpcode 0) ∧ Event.load [] ≠ .construct ∧
    Event.cycle ≠ .construct ∧ Event.tick ≠ .construct ∧ Event.setKey 0 true ≠ .construct ∧ Event.acknowledge ≠ .construct := by decide

/-- Waiting for a key into V3. -/
def waitingState : State := { State.reset with status := .awaitingKey 3 }

theorem witness_WaitingCycleRechecksKeypad :
    (waitingState.status = .awaitingKey 3 ∧ ∀ k : Reg, waitingState.keys.pressed k = false) ∧
    ((keysDown [0xF] waitingState).status = .awaitingKey 3 ∧ (keysDown [0xF] waitingState).keys.pressed 0xF = true) := by decide
theorem witness_FaultsArePrecise : got reason (stepWith defaultParams State.reset) = some (some (.unknownOpcode 0)) := by decide
/-- A state whose next word is `hi lo`, with I = 0xFFFF and V1 = 0x10. -/
def faulting (hi lo : Byte) : State := put (withRegs [(1, 0x10)] 0xFFFF) 0x200 [hi, lo]

-- one state for each of the codes 1 to 7, in code order, two for KeyIndex, and two that do not fault
theorem witness_CycleFaultsExactlyAsTabled : (faulting 0xD0 0x01).status = .running ∧
    cycleFault defaultParams State.reset = some (.unknownOpcode 0) ∧
    cycleFault defaultParams { State.reset with pc := 0xFFF } = some (.outOfBounds (.fetch 0xFFF)) ∧
    cycleFault defaultParams (faulting 0xD0 0x01) = some (.outOfBounds (.memory 0xFFFF 1)) ∧
    cycleFault defaultParams { faulting 0x22 0x00 with sp := 16 } = some (.outOfBounds .stackOverflow) ∧
    cycleFault defaultParams (faulting 0x00 0xEE) = some (.outOfBounds .stackUnderflow) ∧
    cycleFault defaultParams (faulting 0xE1 0x9E) = some (.outOfBounds (.keyIndex 0x10)) ∧
    cycleFault defaultParams (faulting 0xE1 0xA1) = some (.outOfBounds (.keyIndex 0x10)) ∧
    cycleFault defaultParams (faulting 0xF1 0x1E) = some (.outOfBounds (.indexOverflow 0x1000F)) ∧
    cycleFault defaultParams (faulting 0xD0 0x00) = none ∧ cycleFault defaultParams lastWord = none := by decide
-- the same states halt for these reasons, the first of them R270's code 3, the last code 7
theorem test_step_faults : got reason (step (faulting 0xD0 0x01)) = some (some (.outOfBounds (.memory 0xFFFF 1))) ∧
    got reason (step (faulting 0xE1 0x9E)) = some (some (.outOfBounds (.keyIndex 0x10))) ∧
    got reason (step (faulting 0xF1 0x1E)) = some (some (.outOfBounds (.indexOverflow 0x1000F))) ∧
    got reason (step (faulting 0xD0 0x00)) = some none := by decide

/-- Two cycles, the second on the unknown word 0x0000, and host operations before, between and after. -/
def faultingSession : List Event := [.load [0x60, 0x05], .cycle, .tick, .cycle, .setKey 1 true, .tick]

theorem witness_HaltedIsNoSuccessfulEnd : Event.construct ∉ faultingSession ∧
    got reason (runEvents defaultParams faultingSession State.reset) = some (some (.unknownOpcode 0)) := by decide
-- R315: the fault is surfaced although host operations follow it, and although a construction does
theorem test_faulting_session :
    driveEvents defaultParams faultingSession State.reset = .fault (.halted (.unknownOpcode 0)) ∧
    driveEvents defaultParams (faultingSession ++ [.construct]) State.reset = .fault (.halted (.unknownOpcode 0)) := ⟨rfl, rfl⟩
-- a session may begin by constructing away a Halted state, and the wait for a key is no fault
theorem test_session_completes :
    got (·.status) (driveEvents defaultParams [.construct, .load [0xF3, 0x0A], .cycle] (State.reset.halt (.unknownOpcode 0))) =
      some (.awaitingKey 3) := by decide +kernel

/-- A `1200` at 0x200. -/
def selfJump : State := put State.reset 0x200 [0x12, 0x00]

/-- The polling loop `F107 3100 1200` in its second round, DT = 5. -/
def timerLoop : State := put { withRegs [(1, 5)] 0 with dt := 5 } 0x200 [0xF1, 0x07, 0x31, 0x00, 0x12, 0x00]

theorem witness_selfJump : selfJump.executes defaultParams (.jp 0x200) ∧ selfJump.pc.toNat = (0x200 : Addr).toNat :=
  ⟨⟨rfl, by decide, by decide⟩, by decide⟩
theorem witness_timerLoop : (0 : Nat) < 3 ∧ cycles defaultParams 0 timerLoop = .next timerLoop ∧
    timerLoop.executes defaultParams (.ldVxDT 1) ∧ cycles defaultParams 3 timerLoop = .next timerLoop :=
  ⟨by decide, rfl, ⟨rfl, by decide, by decide⟩, next_of_got (by decide)⟩
theorem witness_WaitsAndLoopsAreHangs :
    (waitingState.status = .awaitingKey 3 ∧ ∀ k : Reg, waitingState.keys.pressed k = false) ∧
    (selfJump.executes defaultParams (.jp 0x200) ∧ selfJump.pc.toNat = (0x200 : Addr).toNat) ∧
    cycles defaultParams 3 timerLoop = .next timerLoop :=
  ⟨witness_WaitingCycleRechecksKeypad.1, witness_selfJump, witness_timerLoop.2.2.2⟩
-- R289: a state in each of the three situations
theorem witness_HangsNeverFinish : waitingState.isHung defaultParams ∧ selfJump.isHung defaultParams ∧
    timerLoop.isHung defaultParams :=
  ⟨.inl ⟨⟨3, rfl⟩, by decide⟩, .inr (.inl ⟨0x200, witness_selfJump.1, by decide⟩),
    .inr (.inr fun n => ⟨n * 3, by omega, timerLoop, 1, cycles_recur witness_timerLoop.2.2.2 n, witness_timerLoop.2.2.1⟩)⟩
-- R274: Halted is no successful end, not even of a run of no cycles
theorem test_halted_no_success : drive defaultParams 0 haltedState = .fault (.halted (.unknownOpcode 0)) ∧
    drive defaultParams 1 State.reset = .fault (.halted (.unknownOpcode 0)) := ⟨rfl, rfl⟩
theorem reset_stack_zero (k : Nat) : State.reset.stackEntry k = 0 := by
  simp only [State.stackEntry, State.reset]
  by_cases h : k < 16 <;> simp [h]
theorem witness_StepKeepsInvariant : lastWord.Inv ∧ (got (·.pc) (step lastWord)).isSome :=
  ⟨⟨by decide, by decide, fun k => by rw [show lastWord.stackEntry k = 0 from reset_stack_zero k]; decide,
    fun x h => absurd h (by simp [lastWord, put, State.writeBytes, State.reset])⟩, by decide⟩
theorem witness_SessionKeepsInvariant : lastWord.Inv ∧
    (got (·.pc) (runEvents defaultParams [.construct, .load [0x12, 0x00], .tick, .cycle, .setKey 1 true, .acknowledge] lastWord)).isSome :=
  ⟨witness_StepKeepsInvariant.1, by decide +kernel⟩
theorem witness_CanonicalMemoryIsUnique : Memory.wf [(0xFFF, 1)] = true ∧ ∀ a, Memory.read [(0xFFF, 1)] a = Memory.read [(0xFFF, 1)] a :=
  ⟨by decide, fun _ => rfl⟩
theorem witness_OnlyListedInstructionsWriteVF : (got (·.pc) (exec (.addImm 0xE 1) State.reset)).isSome ∧
    mayWriteVF (.addImm 0xE 1) = false ∧ mayWriteVF (.ldVxMem 0xE) = false := by decide
theorem witness_InstructionsChangeOnlyTheirParts : State.reset.status = .running ∧
    got reason (exec (.ldMemVx 0xF) State.reset) = some none := by decide
theorem witness_CyclesLeaveKeysAndTimers :
    got (·.dt) (stepWith defaultParams (put (withRegs [(1, 9)] 0) 0x200 [0xF1, 0x15])) = some 9 ∧
    got (·.st) (stepWith defaultParams (put (withRegs [(1, 9)] 0) 0x200 [0xF1, 0x18])) = some 9 := by decide
theorem witness_RedrawFollowsDrawing :
    got (·.redraw) (stepWith defaultParams (put State.reset 0x200 [0x00, 0xE0])) = some true ∧
    got (fun t => (t.pixel 0, t.redraw)) (stepWith defaultParams (put State.reset 0x200 [0xD0, 0x11])) = some (true, true) ∧
    got (·.redraw) (stepWith defaultParams { State.reset with redraw := true }) = some true := by decide
theorem witness_ConstructionGivesResetValues : (80 : Nat) ≤ 80 ∧ (79 : Nat) < 80 := by decide
theorem witness_LoadPlacesRomOrFails : (List.replicate 3584 (1 : Byte)).length ≤ 3584 ∧
    (List.replicate 3585 (1 : Byte)).length > 3584 ∧ (0 : Nat) < (List.replicate 3584 (1 : Byte)).length := by
  simp only [List.length_replicate]; decide
theorem witness_SetKeyAndAcknowledgeWriteOnePart : (0 : Reg) ≠ 0xF := by decide
theorem witness_SkipsCompareRegisters : (withRegs [(3, 0x42)] 0).getV 3 = 0x42 ∧ (withRegs [(3, 0x42)] 0).getV 3 ≠ 0x43 ∧
    (withRegs [(3, 0x42)] 0).getV 3 = (withRegs [(3, 0x42)] 0).getV 3 ∧ (withRegs [(3, 0x42)] 0).getV 3 ≠ (withRegs [] 0).getV 4 := by decide
theorem witness_CallPushesItsAddress : (State.sp { State.reset with sp := 15 }).val < 16 ∧
    (State.sp { State.reset with sp := 16 }).val = 16 ∧ (14 : Nat) ≠ (State.sp { State.reset with sp := 15 }).val := by decide
theorem witness_ReturnPopsAndAddsTwo : 0 < (State.sp { State.reset with sp := 1 }).val ∧ State.reset.sp.val = 0 := by decide
theorem witness_CallThenReturnResumes : (State.sp { State.reset with sp := 15 }).val < 16 := by decide
theorem witness_LoadsWriteRegister : (0xF : Reg) ≠ 0 := by decide
theorem witness_AddImmediateWraps : (0xE : Reg) ≠ 0xF := by decide
theorem witness_LogicIsBitwise : (0xF : Reg) ≠ 1 := by decide
theorem witness_AddSetsCarry : (0 : Reg) ≠ 0xF ∧ (1 : Reg) ≠ 0 ∧ (1 : Reg) ≠ 0xF := by decide
theorem witness_SubtractionsSetNoBorrow : (0xE : Reg) ≠ 0xF ∧ (0 : Reg) ≠ 0xE ∧ (0 : Reg) ≠ 0xF := by decide
theorem witness_ShiftsMoveOneBitOut : (0xE : Reg) ≠ 0xF ∧ (0xD : Reg) ≠ 0xE ∧ (0xD : Reg) ≠ 0xF := by decide
theorem witness_RandomByteIsMasked : (0 : Reg) ≠ 0xF := by decide
theorem witness_IndexAddIsExactOrHalts :
    (withRegs [(0, 0x0F)] 0xFFF0).i.toNat + ((withRegs [(0, 0x0F)] 0xFFF0).getV 0).toNat ≤ 0xFFFF ∧
    (withRegs [(0, 1)] 0xFFFF).i.toNat + ((withRegs [(0, 1)] 0xFFFF).getV 0).toNat > 0xFFFF := by decide
theorem witness_DecimalDigitsAreStored : (withRegs [] 0xFFD).i.toNat + 3 ≤ 4096 ∧ (withRegs [] 0xFFE).i.toNat + 3 > 4096 ∧
    defaultParams.bcdMode = .standard ∧ otherParams.bcdMode = .reference ∧ (0xFFC : Nat) < (withRegs [] 0xFFD).i.toNat := by decide
theorem witness_DefaultDecimalStoreCompletes : (withRegs [] 0xFFD).i.toNat + 3 ≤ 4096 ∧
    (0xFFC : Nat) < (withRegs [] 0xFFD).i.toNat ∧ (withRegs [] 0xFFE).i.toNat + 3 > 4096 := by decide
theorem witness_BlockStoreWritesRegisters : (withRegs [] 0xFF0).i.toNat + (0xF : Reg).toNat + 1 ≤ 4096 ∧
    (withRegs [] 0xFFF).i.toNat + (1 : Reg).toNat + 1 > 4096 ∧ (0xF : Reg).toNat ≤ (0xF : Reg).toNat ∧
    (0xFEF : Nat) < (withRegs [] 0xFF0).i.toNat := by decide
theorem witness_BlockLoadReadsRegisters : (withRegs [] 0xFF1).i.toNat + (0xE : Reg).toNat + 1 ≤ 4096 ∧
    (withRegs [] 0xFFF).i.toNat + (1 : Reg).toNat + 1 > 4096 ∧ (0xE : Reg).toNat < (0xF : Reg).toNat := by decide

/-- P6 of 95_test_vectors.md before its store: V0, V1 = 12 08, I just after the store's own word. -/
def selfModifying : State := { withRegs [(0, 0x12), (1, 0x08)] 0x208 with pc := 0x206 }

theorem witness_StoreIsSeenByNextFetch : 1 ≤ (1 : Reg).toNat ∧ selfModifying.i.toNat = selfModifying.pc.toNat + 2 ∧
    selfModifying.i.toNat + (1 : Reg).toNat + 1 ≤ 4096 ∧ got fetchWord (exec (.ldMemVx 1) selfModifying) = some 0x1208 := by decide

/-- A sprite row 0x80 at 0xFFF, drawn at column 0, row 0. -/
def oneDot : State := put (withRegs [] 0xFFF) 0xFFF [0x80]

theorem witness_SpriteDrawFlipsCoveredPixels :
    (oneDot.i.toNat + (1 : Nibble).toNat ≤ 4096 ∧ (0 : Nibble).toNat = 0) ∧
    (SpriteCovers oneDot 0 0 1 0 ∧ oneDot.pixel 0 = false ∧ State.pixel { oneDot with fb := Pixels.flip Pixels.clear 0 } 0 = true) ∧
    ¬ SpriteCovers oneDot 0 0 1 1 := by unfold SpriteCovers; decide
theorem witness_SpriteBeyondMemoryHalts : 1 ≤ (2 : Nibble).toNat ∧ (withRegs [] 0xFFF).i.toNat + (2 : Nibble).toNat > 4096 := by decide
theorem witness_SpriteDrawnTwiceRestoresScreen : (0 : Reg) ≠ 0xF ∧ (1 : Reg) ≠ 0xF ∧ oneDot.i.toNat + (1 : Nibble).toNat ≤ 4096 ∧
    ∃ t u, exec (.drw 0 1 1) oneDot = .next t ∧ exec (.drw 0 1 1) t = .next u :=
  ⟨by decide, by decide, by decide, _, _, rfl, rfl⟩
theorem witness_KeySkipsReadTheKey : ((withRegs [(0, 15)] 0).getV 0).toNat = (0xF : Reg).toNat ∧
    ((withRegs [(0, 16)] 0).getV 0).toNat > 15 := by decide
theorem witness_KeyWaitTakesLowestKeyOrWaits :
    ((keysDown [0xB, 4] State.reset).keys.pressed 4 = true ∧
      ∀ j : Reg, j.toNat < (4 : Reg).toNat → (keysDown [0xB, 4] State.reset).keys.pressed j = false) ∧
    (∀ k : Reg, State.reset.keys.pressed k = false) := by decide
theorem witness_AnyKeySelectStoresPressedKey : (∃ k : Reg, (keysDown [0xF] State.reset).keys.pressed k = true) ∧
    (∀ i : Reg, (keysDown [0xF] State.reset).keys.pressed i = true → i = 0xF) ∧ (∀ k : Reg, State.reset.keys.pressed k = false) := by decide
theorem witness_DelayTimerIsRead : (0 : Reg) ≠ 0xF := by decide

end Sys2Proof.Tests
end

section
/-! PROOFS. The statements of 00_scope.md. -/

namespace Sys2Proof.Machine

/-- Instruction by instruction, the parameterised executor at the defaults is the default one. -/
theorem execWith_defaultParams : execWith defaultParams = exec := funext₂ execWith_default

/-- Settles O8: both steps are one run cycle at the default parameters, and their executors agree on every instruction. -/
theorem defaultParametersGiveStep : Obligations.DefaultParametersGiveStep := by
  intro s
  calc stepWith defaultParams s
      = runCycle defaultParams (execWith defaultParams) s := rfl
    _ = runCycle defaultParams exec s := by rw [execWith_defaultParams]
    _ = step s := rfl

end Sys2Proof.Machine
end

section
/-! PROOFS. The statements of 10_state.md: what an instruction and a cycle leave unchanged, and the invariant. -/

namespace Sys2Proof.Machine

open Sys2Proof.Claims

/-! ### Completing or faulting -/

/-- The instruction either faults, leaving `s` but for its status (60_exceptions.md R273), or completes in a state with `P`. -/
def HaltsOr (s : State) (P : State → Prop) (o : Result) : Prop := ∀ t, o = .next t → (∃ r, t = s.halt r) ∨ P t

section
variable {s : State} {P : State → Prop}

theorem haltsOr_next {t : State} (h : P t) : HaltsOr s P (.next t) := by
  rintro _ ⟨⟩
  exact .inr h

/-- An instruction that checks for its fault first completes only when the check passes. -/
theorem haltsOr_check {c : Prop} [Decidable c] {r : HaltReason} {o : Result} (h : ¬ c → HaltsOr s P o) :
    HaltsOr s P (if c then raise r s else o) := by
  split
  · exact fun _ ht => .inl ⟨r, raise_next ht⟩
  · exact h ‹_›

theorem haltsOr_withRange {k : Nat} {done : State} (h : Memory.inRange s.i.toNat k = true → P done) :
    HaltsOr s P (withRange k s done) := by
  intro t ht
  rcases withRange_next ht with ⟨hr, rfl⟩ | ⟨_, rfl⟩
  · exact .inr (h hr)
  · exact .inl ⟨_, rfl⟩

theorem haltsOr_skipOnKey {want : Bool} {x : Reg} (h : ∀ c, P (s.skipIf c)) : HaltsOr s P (skipOnKey want x s) := by
  intro t ht
  rcases skipOnKey_next ht with ⟨_, _, rfl⟩ | ⟨_, rfl⟩
  · exact .inr (h _)
  · exact .inl ⟨_, rfl⟩

theorem haltsOr_waitKey {p : Params} {x : Reg} (htake : P (s.takeKey p x)) (hwait : P { s with status := .awaitingKey x }) :
    HaltsOr s P (waitKey p x s) := by
  intro t ht
  rcases waitKey_next ht with ⟨_, rfl⟩ | ⟨_, rfl⟩
  · exact .inr htake
  · exact .inr hwait

/-- What a fault keeps too holds however the instruction ends. -/
theorem HaltsOr.elim {o : Result} {t : State} (h : HaltsOr s P o) (ht : o = .next t) (hhalt : ∀ r, P (s.halt r)) : P t := by
  rcases h t ht with ⟨r, rfl⟩ | h
  · exact hhalt r
  · exact h

theorem HaltsOr.imp {Q : State → Prop} {o : Result} (h : HaltsOr s P o) (hPQ : ∀ t, P t → Q t) : HaltsOr s Q o :=
  fun t ht => (h t ht).imp_right (hPQ t)

end

/-! ### What the shared updates change -/

theorem onlyChanges_setV_advance (s : State) (x : Reg) (b : Byte) : OnlyChanges [.v, .pc] s (s.setV x b).advance :=
  (onlyChanges_iff _ _ _).mpr (by simp [State.stackEntry])

theorem onlyChanges_setFlagThen_advance (s : State) (f : Byte) (x : Reg) (b : Byte) :
    OnlyChanges [.v, .pc] s (s.setFlagThen f x b).advance :=
  (onlyChanges_iff _ _ _).mpr (by simp [State.stackEntry, State.readByte])

theorem onlyChanges_takeKey (s : State) (p : Params) (x : Reg) : OnlyChanges [.v, .pc] s (s.takeKey p x) :=
  onlyChanges_setV_advance s x _

theorem onlyChanges_jumpTo (s : State) (w : Word) : OnlyChanges [.pc] s (s.jumpTo w) :=
  (onlyChanges_iff _ _ _).mpr (by simp)

theorem onlyChanges_skipIf (s : State) (c : Bool) : OnlyChanges [.pc] s (s.skipIf c) := by
  cases c
  · exact onlyChanges_jumpTo s (s.pc + 2)
  · exact onlyChanges_jumpTo s (s.pc + 4)

theorem onlyChanges_writeBytes_advance (s : State) (a : Nat) (bs : List Byte) :
    OnlyChanges [.mem, .pc] s (s.writeBytes a bs).advance :=
  (onlyChanges_iff _ _ _).mpr (by simp [State.stackEntry])

theorem onlyChanges_pop_jumpTo (s : State) (w : Word) : OnlyChanges [.sp, .pc] s (s.pop.jumpTo w) :=
  (onlyChanges_iff _ _ _).mpr (by simp [State.readByte])

theorem onlyChanges_push_jumpTo (s : State) (v w : Word) : OnlyChanges [.stack, .sp, .pc] s ((s.push v).jumpTo w) :=
  (onlyChanges_iff _ _ _).mpr (by simp [State.readByte])

theorem onlyChanges_showCanvas_advance (s : State) (c : Canvas) :
    OnlyChanges [.v, .fb, .redraw, .pc] s (showCanvas s c).advance :=
  (onlyChanges_iff _ _ _).mpr (by simp [showCanvas, State.readByte, State.stackEntry])

/-- An instruction that completes changes only the parts the spec says it writes, and pc (10_state.md R22, R26 to R33). -/
theorem execWith_frame (p : Params) (i : Instr) (s : State) :
    HaltsOr s (OnlyChanges (.pc :: mayChange i) s) (execWith p i s) := by
  cases i with
  | ldImm | addImm | ldReg | orReg | andReg | xorReg | ldVxDT =>
    exact haltsOr_next ((onlyChanges_setV_advance _ _ _).mono (by simp [mayChange]))
  | addReg | subReg | shr | subnReg | shl =>
    exact haltsOr_next ((onlyChanges_setFlagThen_advance _ _ _ _).mono (by simp [mayChange]))
  | seImm | sneImm | seReg | sneReg => exact haltsOr_next (onlyChanges_skipIf _ _)
  | skp | sknp => exact haltsOr_skipOnKey (onlyChanges_skipIf _)
  | jp | jpV0 => exact haltsOr_next (onlyChanges_jumpTo _ _)
  | call => exact haltsOr_check fun _ => haltsOr_next ((onlyChanges_push_jumpTo _ _ _).mono (by simp [mayChange]))
  | ret => exact haltsOr_check fun _ => haltsOr_next ((onlyChanges_pop_jumpTo _ _).mono (by simp [mayChange]))
  | cls | ldI | ldF | ldDTVx | ldSTVx | rnd =>
    exact haltsOr_next ((onlyChanges_iff _ _ _).mpr (by simp [mayChange, State.readByte, State.stackEntry, State.getV, drawByte]))
  | addI =>
    exact haltsOr_check fun _ =>
      haltsOr_next ((onlyChanges_iff _ _ _).mpr (by simp [mayChange, State.readByte, State.stackEntry, State.getV]))
  | drw => exact haltsOr_withRange fun _ => (onlyChanges_showCanvas_advance _ _).mono (by simp [mayChange])
  | ldB | ldMemVx =>
    exact haltsOr_withRange fun _ => (onlyChanges_writeBytes_advance _ _ _).mono (by simp [mayChange])
  | ldVxMem =>
    exact haltsOr_withRange fun _ =>
      (onlyChanges_iff _ _ _).mpr (by simp [mayChange, State.readByte, State.stackEntry])
  | ldVxK =>
    exact haltsOr_waitKey ((onlyChanges_takeKey _ _ _).mono (by simp [mayChange]))
      ((onlyChanges_iff _ _ _).mpr (by simp [mayChange, State.readByte, State.stackEntry, State.getV]))

/-- Settles O24: the frame of the executor at the default parameters, where not Halted rules the fault out. -/
theorem instructionsChangeOnlyTheirParts : Obligations.InstructionsChangeOnlyTheirParts := by
  intro i s t _ h hrun
  rcases execWith_frame defaultParams i s t ((execWith_default i s).trans h) with ⟨r, rfl⟩ | hframe
  · exact absurd ⟨r, rfl⟩ hrun
  · exact hframe

/-! ### VF -/

/-- A write to another register than VF is no write of VF. -/
theorem getV_regF_setV {s : State} {x : Reg} (h : (x == 0xF) = false) (b : Byte) : (s.setV x b).getV 0xF = s.getV 0xF :=
  s.getV_setV_ne (Ne.symm (beq_eq_false_iff_ne.mp h)) b

/-- A block load up to another register than VF stops below VF. -/
theorem getV_regF_loadRegs {s : State} {x : Reg} (h : (x == 0xF) = false) (m : Memory) (a : Nat) :
    State.getV { s with v := loadRegs m a (x.toNat + 1) s.v } 0xF = s.getV 0xF := by
  have hx : x.toNat ≠ 15 := reg_toNat_ne (beq_eq_false_iff_ne.mp h)
  have hlt := x.isLt
  exact (loadRegs_getElem m a (x.toNat + 1) s.v 15 (by decide)).trans (if_neg (by omega))

/-- An instruction that is no writer of VF completes with VF as it was (10_state.md R22). -/
theorem execWith_getV_regF (p : Params) (i : Instr) (s : State) (h : mayWriteVF i = false) :
    HaltsOr s (fun t => t.getV 0xF = s.getV 0xF) (execWith p i s) := by
  cases i with
  | addReg | subReg | shr | subnReg | shl | drw => cases h
  | ldImm | addImm | ldReg | orReg | andReg | xorReg | ldVxDT | rnd => exact haltsOr_next (getV_regF_setV h _)
  | ldVxK => exact haltsOr_waitKey (getV_regF_setV h _) rfl
  | ldVxMem => exact haltsOr_withRange fun _ => getV_regF_loadRegs h _ _
  | _ => exact (execWith_frame p _ s).imp fun _ hframe => hframe .v (by simp [mayChange]) 0xF

/-- Settles O23: a fault keeps every register, and an instruction that completes keeps VF unless it is a listed writer. -/
theorem onlyListedInstructionsWriteVF : Obligations.OnlyListedInstructionsWriteVF := by
  intro i s t h hi
  exact (execWith_getV_regF defaultParams i s hi).elim ((execWith_default i s).trans h) fun _ => rfl

/-! ### What a cycle can do -/

/-- A cycle executes the instruction it fetched, or takes a fault, or changes nothing, or takes the key it waited for
(30_encoding.md R97). -/
theorem stepWith_next {p : Params} {s t : State} (h : stepWith p s = .next t) :
    (∃ i, s.executes p i ∧ execWith p i s = .next t) ∨ (∃ r, t = s.halt r) ∨ t = s ∨
    (∃ x, s.status = .awaitingKey x ∧ t = { s.takeKey p x with status := .running }) := by
  unfold stepWith at h
  cases hs : s.status with
  | halted r =>
    rw [runCycle_halted hs] at h
    cases h
    exact .inr (.inr (.inl rfl))
  | awaitingKey x =>
    rw [runCycle_awaitingKey hs] at h
    cases h
    rcases awaitKeyStep_eq p x s with ⟨_, e⟩ | ⟨_, e⟩
    · exact .inr (.inr (.inr ⟨x, rfl, e⟩))
    · exact .inr (.inr (.inl e))
  | running =>
    rw [runCycle_running hs] at h
    rcases runningCycle_eq p (execWith p) s with ⟨_, e⟩ | ⟨_, _, e⟩ | ⟨i, hpc, hd, e⟩ <;> rw [e] at h
    · cases h
      exact .inr (.inl ⟨_, rfl⟩)
    · cases h
      exact .inr (.inl ⟨_, rfl⟩)
    · exact .inl ⟨i, ⟨hs, decide_eq_true hpc, hd⟩, h⟩

/-- A part that a cycle changes, other than a register, pc and status, is one the spec lists for the instruction it
executed. -/
theorem stepWith_changes {p : Params} {s t : State} (part : Part) (h : stepWith p s = .next t)
    (hpart : part ∉ [Part.v, .pc, .status]) (hne : ¬ part.same s t) :
    ∃ i, s.executes p i ∧ execWith p i s = .next t ∧ part ∈ mayChange i := by
  have hkeep {parts : List Part} (hsub : ∀ q ∈ parts, q ∈ [Part.v, .pc, .status]) : ¬ OnlyChanges parts s t :=
    fun hframe => hne (hframe.mono hsub part hpart)
  rcases stepWith_next h with ⟨i, hi, he⟩ | ⟨r, rfl⟩ | rfl | ⟨x, _, rfl⟩
  · rcases execWith_frame p i s t he with ⟨r, rfl⟩ | hframe
    · exact absurd (onlyChanges_halt s r) (hkeep (by simp))
    · have hlisted : part ∈ .pc :: mayChange i := not_imp_comm.mp (hframe part) hne
      exact ⟨i, hi, he, (List.mem_cons.mp hlisted).resolve_left fun hpc => hpart (by simp [hpc])⟩
  · exact absurd (onlyChanges_halt s r) (hkeep (by simp))
  · exact absurd (.refl [] _) (hkeep (by simp))
  · exact absurd ((onlyChanges_iff [.v, .pc, .status] _ _).mpr (by simp [State.readByte, State.stackEntry])) (hkeep (by simp))

/-! ### Keys and timers -/

/-- No instruction writes a key (10_state.md R30). -/
theorem keys_not_mem_mayChange (i : Instr) : Part.keys ∉ mayChange i := by
  cases i <;> simp [mayChange]

/-- Only `Fx15` writes DT (10_state.md R29). -/
theorem dt_mem_mayChange {i : Instr} (h : Part.dt ∈ mayChange i) : ∃ x, i = .ldDTVx x := by
  cases i <;> simp [mayChange] at h ⊢

/-- Only `Fx18` writes ST (10_state.md R29). -/
theorem st_mem_mayChange {i : Instr} (h : Part.st ∈ mayChange i) : ∃ x, i = .ldSTVx x := by
  cases i <;> simp [mayChange] at h ⊢

theorem stepWith_keys {p : Params} {s t : State} (h : stepWith p s = .next t) : t.keys = s.keys := by
  by_contra hne
  obtain ⟨i, _, _, hlisted⟩ := stepWith_changes .keys h (by decide) hne
  exact keys_not_mem_mayChange i hlisted

theorem stepWith_dt {p : Params} {s t : State} (h : stepWith p s = .next t) (hne : t.dt ≠ s.dt) :
    ∃ x, decodeWith p.loadSubcode (fetchWord s) = some (.ldDTVx x) ∧ t.dt = s.getV x := by
  obtain ⟨i, ⟨_, _, hdecode⟩, he, hlisted⟩ := stepWith_changes .dt h (by decide) hne
  obtain ⟨x, rfl⟩ := dt_mem_mayChange hlisted
  cases he
  exact ⟨x, hdecode, rfl⟩

theorem stepWith_st {p : Params} {s t : State} (h : stepWith p s = .next t) (hne : t.st ≠ s.st) :
    ∃ x, decodeWith p.loadSubcode (fetchWord s) = some (.ldSTVx x) ∧ t.st = s.getV x := by
  obtain ⟨i, ⟨_, _, hdecode⟩, he, hlisted⟩ := stepWith_changes .st h (by decide) hne
  obtain ⟨x, rfl⟩ := st_mem_mayChange hlisted
  cases he
  exact ⟨x, hdecode, rfl⟩

/-- Settles O25: no instruction may change a key, and `Fx15` and `Fx18` alone may change their timer. -/
theorem cyclesLeaveKeysAndTimers : Obligations.CyclesLeaveKeysAndTimers :=
  fun _ _ _ h => ⟨stepWith_keys h, stepWith_dt h, stepWith_st h⟩

/-! ### The redraw signal -/

/-- The instruction is `00E0` or `Dxyn`. -/
def Draws (i : Instr) : Prop := i = .cls ∨ ∃ x y n, i = .drw x y n

/-- Only `00E0` and `Dxyn` write the framebuffer or redraw (10_state.md R31, R32). -/
theorem draws_of_mem_mayChange {i : Instr} {part : Part} (hpart : part = .fb ∨ part = .redraw) (h : part ∈ mayChange i) :
    Draws i := by
  rcases hpart with rfl | rfl <;> cases i <;> simp [mayChange, Draws] at h ⊢

/-- `00E0` and `Dxyn` set redraw when they complete (10_state.md R32). -/
theorem execWith_redraw {p : Params} {i : Instr} {s : State} (h : Draws i) :
    HaltsOr s (fun t => t.redraw = true) (execWith p i s) := by
  rcases h with rfl | ⟨x, y, n, rfl⟩
  · exact haltsOr_next rfl
  · exact haltsOr_withRange fun _ => rfl

/-- A cycle that changes the framebuffer or redraw executes a drawing instruction, which leaves redraw set. -/
theorem stepWith_display {p : Params} {s t : State} {part : Part} (h : stepWith p s = .next t)
    (hpart : part = .fb ∨ part = .redraw) (hne : ¬ part.same s t) :
    t.redraw = true ∧ ∃ i, decodeWith p.loadSubcode (fetchWord s) = some i ∧ Draws i := by
  obtain ⟨i, ⟨_, _, hdecode⟩, he, hlisted⟩ := stepWith_changes part h (by rcases hpart with rfl | rfl <;> decide) hne
  have hdraws := draws_of_mem_mayChange hpart hlisted
  rcases execWith_redraw hdraws t he with ⟨r, rfl⟩ | hset
  · exact absurd (by rcases hpart with rfl | rfl <;> rfl) hne
  · exact ⟨hset, i, hdecode, hdraws⟩

/-- Settles O26: what changes the framebuffer or redraw draws, and so leaves redraw set. -/
theorem redrawFollowsDrawing : Obligations.RedrawFollowsDrawing := by
  intro p s t h
  refine ⟨fun hset => ?_, fun hne => (stepWith_display h (.inl rfl) hne).1, fun hne => ?_⟩
  · by_contra hclear
    exact hclear (stepWith_display h (.inr rfl) fun hsame : t.redraw = s.redraw => hclear (hsame.trans hset)).1
  · obtain ⟨_, i, hdecode, rfl | ⟨x, y, n, rfl⟩⟩ := stepWith_display h (.inr rfl) hne
    · exact .inl hdecode
    · exact .inr ⟨x, y, n, hdecode⟩

/-! ### Construction -/

theorem stackEntry_reset (k : Nat) : State.reset.stackEntry k = 0 := by
  simp only [State.stackEntry, State.reset]
  by_cases h : k < stackDepth <;> simp [h]

/-- Unlisted memory above FONT is zero (20_memory.md R63). -/
theorem Memory.initial_of_ge {a : Nat} (h : fontLen ≤ a) : Memory.initial a = 0 :=
  List.getD_eq_default fontTable 0 h

theorem readByte_construct_font (p : Params) (a : Fin fontLen) : (construct p).readByte a.val = p.font[a.val] := by
  have hread := Memory.read_writeBytes_inside p.font.toList [] 0 a.val (by simp)
  rwa [Nat.zero_add, Vector.getElem_toList] at hread

theorem readByte_construct_above (p : Params) {a : Nat} (h : fontLen ≤ a) : (construct p).readByte a = 0 :=
  calc (construct p).readByte a
      = Memory.read [] a := Memory.read_writeBytes_outside _ _ _ _ (.inr (by simpa using h))
    _ = 0 := Memory.initial_of_ge h

/-- Settles O27: construction stores FONT over the zeroed state. -/
theorem constructionGivesResetValues : Obligations.ConstructionGivesResetValues := by
  intro p
  refine ⟨readByte_construct_font p, fun _ => readByte_construct_above p, fun x => ?_, rfl, rfl, stackEntry_reset, rfl, rfl, rfl,
    fun k => ?_, lit_clear, rfl, rfl⟩
  · exact Vector.getElem_replicate x.isLt
  · exact Vector.getElem_replicate k.isLt

/-- Settles O19: nothing is listed in memory, pc is 0x200, the stack is zero and the core is Running. -/
theorem resetMeetsInvariant : Obligations.ResetMeetsInvariant where
  mem_wf := Memory.wf_nil
  pc_le := by decide
  stack_le k := by rw [stackEntry_reset]; decide
  waiting_pc_le _ h := nomatch h

/-! ### The invariant -/

/-- What an update of registers, timers or the display keeps of the invariant, on a Running core. -/
theorem State.Inv.keep {s t : State} (hi : s.Inv) (hrun : s.status = .running) (hmem : t.mem = s.mem)
    (hstack : t.stack = s.stack) (hstatus : t.status = s.status) (hpc : t.pc.toNat ≤ 0x1100) : t.Inv where
  mem_wf := hmem ▸ hi.mem_wf
  pc_le := hpc
  stack_le k := State.stackEntry_congr hstack k ▸ hi.stack_le k
  waiting_pc_le _ h := by rw [hstatus, hrun] at h; cases h

theorem State.Inv.halt {s : State} (hi : s.Inv) (r : HaltReason) : (s.halt r).Inv where
  mem_wf := hi.mem_wf
  pc_le := hi.pc_le
  stack_le := hi.stack_le
  waiting_pc_le _ h := nomatch h

theorem State.Inv.writeBytes {s : State} (hi : s.Inv) {a : Nat} {bs : List Byte} (h : a + bs.length ≤ memSize) :
    (s.writeBytes a bs).Inv where
  mem_wf := Memory.wf_writeBytes bs hi.mem_wf h
  pc_le := hi.pc_le
  stack_le := hi.stack_le
  waiting_pc_le := hi.waiting_pc_le

/-- An advance or a skip from a fetchable address stays far below 0x1100 (10_state.md R25). -/
theorem advance_pc_le {w : Word} (h : w.toNat ≤ 0xFFE) : (w + 2).toNat ≤ 0x1100 := by bv_omega

theorem skipIf_pc_le {s : State} (hpc : s.pc.toNat ≤ 0xFFE) (c : Bool) : (s.skipIf c).pc.toNat ≤ 0x1100 := by
  rw [State.skipIf_pc]
  split <;> bv_omega

theorem zextAddr_le (nnn : Addr) : (zextAddr nnn).toNat ≤ 0xFFF := by
  have := nnn.isLt
  simp only [zextAddr, BitVec.toNat_setWidth]
  omega

/-- The furthest indexed jump: 0xFFF + 0xFF + 2 (40_control_flow.md R118). -/
theorem indexedTarget_le (nnn : Addr) (v0 : Byte) : (indexedTarget nnn v0).toNat ≤ 0x1100 := by
  have h1 := nnn.isLt
  have h2 := v0.isLt
  have hnnn : (zextAddr nnn).toNat = nnn.toNat := BitVec.toNat_setWidth_of_le (by decide)
  have hv0 : (zextByte v0).toNat = v0.toNat := BitVec.toNat_setWidth_of_le (by decide)
  rw [indexedTarget]
  bv_omega

section
variable {s : State} (hi : s.Inv) (hrun : s.status = .running) (hpc : s.pc.toNat ≤ 0xFFE)
include hi hrun hpc

theorem inv_call {nnn : Addr} (h : s.sp.val < stackDepth) : ((s.push s.pc).jumpTo (zextAddr nnn)).Inv where
  mem_wf := hi.mem_wf
  pc_le := (zextAddr_le nnn).trans (by decide)
  stack_le k := by
    rw [State.stackEntry_jumpTo, State.stackEntry_push s s.pc k h]
    split
    · exact hpc
    · exact hi.stack_le k
  waiting_pc_le _ h := by rw [State.jumpTo_status, State.push_status, hrun] at h; cases h

/-- An instruction executed from a fetchable address keeps the invariant. -/
theorem execWith_inv (p : Params) (i : Instr) : HaltsOr s State.Inv (execWith p i s) := by
  have hadv {u : State} (hmem : u.mem = s.mem) (hstack : u.stack = s.stack) (hstatus : u.status = s.status)
      (hu : u.pc = s.pc) : u.advance.Inv :=
    hi.keep hrun hmem hstack hstatus (advance_pc_le (hu ▸ hpc))
  have hskip (c : Bool) : (s.skipIf c).Inv :=
    hi.keep hrun (s.skipIf_mem c) (s.skipIf_stack c) (s.skipIf_status c) (skipIf_pc_le hpc c)
  have hstore {bs : List Byte} {k : Nat} (hlen : bs.length = k) (hk : 0 < k) (h : Memory.inRange s.i.toNat k = true) :
      (s.writeBytes s.i.toNat bs).advance.Inv := by
    have hfits := (Memory.inRange_iff _ _).mp h
    exact (hi.writeBytes (by omega)).keep hrun rfl rfl rfl (advance_pc_le hpc)
  cases i with
  | ldImm | addImm | ldReg | orReg | andReg | xorReg | ldVxDT | addReg | subReg | shr | subnReg | shl | cls | ldI | ldF
  | ldDTVx | ldSTVx | rnd => exact haltsOr_next (hadv rfl rfl rfl rfl)
  | addI => exact haltsOr_check fun _ => haltsOr_next (hadv rfl rfl rfl rfl)
  | drw | ldVxMem => exact haltsOr_withRange fun _ => hadv rfl rfl rfl rfl
  | ldB => exact haltsOr_withRange (hstore rfl (by decide))
  | ldMemVx x => exact haltsOr_withRange (hstore (regList_length s x) (by omega))
  | seImm | sneImm | seReg | sneReg => exact haltsOr_next (hskip _)
  | skp | sknp => exact haltsOr_skipOnKey hskip
  | jp nnn => exact haltsOr_next (hi.keep hrun rfl rfl rfl ((zextAddr_le nnn).trans (by decide)))
  | jpV0 nnn => exact haltsOr_next (hi.keep hrun rfl rfl rfl (indexedTarget_le nnn _))
  | call nnn => exact haltsOr_check fun hsp => haltsOr_next (inv_call hi hrun hpc (by omega))
  | ret => exact haltsOr_check fun _ => haltsOr_next (hi.keep hrun rfl rfl rfl (advance_pc_le (hi.stack_le _)))
  | ldVxK x =>
    exact haltsOr_waitKey (hadv rfl rfl rfl rfl) ⟨hi.mem_wf, hi.pc_le, hi.stack_le, fun _ _ => hpc⟩

end

/-- A cycle keeps the invariant, under any parameters. -/
theorem stepWith_inv {p : Params} {s t : State} (hi : s.Inv) (h : stepWith p s = .next t) : t.Inv := by
  rcases stepWith_next h with ⟨i, ⟨hrun, hpc, _⟩, he⟩ | ⟨r, rfl⟩ | rfl | ⟨x, hwait, rfl⟩
  · exact (execWith_inv hi hrun (of_decide_eq_true hpc) p i).elim he hi.halt
  · exact hi.halt r
  · exact hi
  · exact ⟨hi.mem_wf, advance_pc_le (hi.waiting_pc_le x hwait), hi.stack_le, fun _ h => nomatch h⟩

/-- Settles O20: the cycle at the default parameters keeps the invariant. -/
theorem stepKeepsInvariant : Obligations.StepKeepsInvariant :=
  fun s _ hi h => stepWith_inv hi ((defaultParametersGiveStep s).trans h)

theorem construct_inv (p : Params) : (construct p).Inv :=
  resetMeetsInvariant.writeBytes (by rw [Vector.length_toList]; decide)

theorem load_inv {rom : List Byte} {s t : State} (hi : s.Inv) (h : load rom s = .ok t) : t.Inv := by
  unfold load at h
  split at h
  · cases h
  · next hlen =>
    cases h
    exact hi.writeBytes (by simp only [romMax, progBase, memSize] at hlen ⊢; omega)

/-- Every event of a session keeps the invariant. -/
theorem applyEvent_inv {p : Params} {e : Event} {s t : State} (hi : s.Inv) (h : applyEvent p e s = .next t) : t.Inv := by
  cases e with
  | construct =>
    cases h
    obtain ⟨hmem, hpc, hstack, hwait⟩ := construct_inv p
    exact ⟨hmem, hpc, hstack, hwait⟩
  | load rom =>
    rw [applyEvent] at h
    split at h
    · next u hload => cases h; exact load_inv hi hload
    · cases h; exact hi
  | cycle => exact stepWith_inv hi h
  | tick | setKey | acknowledge =>
    cases h
    exact ⟨hi.mem_wf, hi.pc_le, hi.stack_le, hi.waiting_pc_le⟩

/-- Settles O21: by induction on the events of the session. -/
theorem sessionKeepsInvariant : Obligations.SessionKeepsInvariant := by
  intro p es
  induction es with
  | nil =>
    intro s t hi h
    cases h
    exact hi
  | cons e es ih =>
    intro s t hi h
    obtain ⟨u, hu, hrest⟩ := runEvents_cons_eq_next.mp h
    exact ih u t (applyEvent_inv hi hu) hrest

end Sys2Proof.Machine
end

section
/-! PROOFS. The statements of 20_memory.md: the fetch, a store over code, and where a cycle faults. -/

namespace Sys2Proof.Machine

open Sys2Proof.Claims

/-! ### The fetch -/

/-- A Running core executes what its fetched word decodes to (30_encoding.md R97). -/
theorem step_of_decode {s : State} {i : Instr} (hrun : s.status = .running) (hpc : s.pc.toNat ≤ 0xFFE)
    (hdecode : decode (fetchWord s) = some i) : step s = exec i s := by
  have hdecode : decodeWith defaultParams.loadSubcode (fetchWord s) = some i := hdecode
  rw [step, runCycle_running hrun]
  rcases runningCycle_eq defaultParams exec s with ⟨hout, _⟩ | ⟨_, hnone, _⟩ | ⟨j, _, hj, hcycle⟩
  · omega
  · cases hdecode.symm.trans hnone
  · cases hdecode.symm.trans hj
    exact hcycle

/-- Settles O6: the two bytes at pc, the first the more significant, are the fetched word. -/
theorem stepRunsDecodedInstruction : Obligations.StepRunsDecodedInstruction :=
  fun _ _ => step_of_decode

/-- All 16 bits of the word are placed. -/
theorem withFetchWord_toNat (s : State) (w : Word) : s.withFetchWord 16 w.toNat = placeWord s w := by
  rw [State.withFetchWord, Nat.mod_eq_of_lt w.isLt, BitVec.ofNat_toNat, BitVec.setWidth_eq]

/-- Settles O7: a placed word is fetchable and is the word fetched. -/
theorem placedWordIsExecuted : Obligations.PlacedWordIsExecuted := by
  intro s w i hdecode
  rw [withFetchWord_toNat]
  exact step_of_decode (placeWord_running s w) (placeWord_pc s w) ((fetchWord_placeWord s w).symm ▸ hdecode)

/-! ### A store over code -/

/-- A block store puts Vj at I + j (42_index_memory.md R184). -/
theorem readByte_writeBytes_regList (s : State) {x j : Reg} (h : j.toNat ≤ x.toNat) :
    (s.writeBytes s.i.toNat (regList s x)).readByte (s.i.toNat + j.toNat) = s.getV j := by
  have hj : j.toNat < (regList s x).length := by rw [regList_length]; omega
  exact (Memory.read_writeBytes_inside (regList s x) s.mem s.i.toNat j.toNat hj).trans (regList_getElem s x j hj)

/-- Settles O51: the store completes, pc advances to I, and the first two stored bytes are V0 and V1. -/
theorem storeIsSeenByNextFetch : Obligations.StoreIsSeenByNextFetch := by
  intro x s t hx hi hfits h
  have hdone : exec (.ldMemVx x) s = .next (s.writeBytes s.i.toNat (regList s x)).advance :=
    withRange_of_inRange (.inr hfits)
  cases hdone.symm.trans h
  have hpc : (s.pc + 2).toNat = s.i.toNat := by bv_omega
  have h0 := readByte_writeBytes_regList s (x := x) (j := 0) (Nat.zero_le _)
  have h1 := readByte_writeBytes_regList s (x := x) (j := 1) hx
  rw [fetchWord, State.advance_pc, State.writeBytes_pc, hpc, State.readByte_advance, State.readByte_advance]
  exact congrArg₂ wordOfBytes h0 h1

/-! ### Where a cycle faults -/

theorem haltedAs_halt (r : HaltReason) (s : State) : HaltedAs r s (s.halt r) := ⟨rfl, onlyChanges_halt s r⟩

/-- Settles O54: the range is checked before anything is drawn. -/
theorem spriteBeyondMemoryHalts : Obligations.SpriteBeyondMemoryHalts :=
  fun _ _ _ s hn hout => ⟨_, withRange_of_not_inRange hn hout, haltedAs_halt _ s⟩

/-- The answer `o` raises exactly the fault `f`; where `f` names none, it completes in a state that is not Halted. -/
def FaultsAs (s : State) (o : Result) : Option HaltReason → Prop
  | some r => o = raise r s
  | none => ∃ t, o = .next t ∧ ¬ t.isHalted

/-- Such an answer is Halted for exactly the reason of its fault. -/
theorem FaultsAs.halted_iff {s : State} {o : Result} {f : Option HaltReason} (h : FaultsAs s o f) (r : HaltReason) :
    (∃ t, o = .next t ∧ t.status = .halted r) ↔ f = some r := by
  cases f with
  | some q =>
    have hraise : o = .next (s.halt q) := h
    simp [hraise]
  | none =>
    obtain ⟨t, rfl, hnot⟩ := h
    simpa using fun hr => hnot ⟨r, hr⟩

section
variable {s : State}

theorem faultsAs_next {t : State} (h : ¬ t.isHalted) : FaultsAs s (.next t) none := ⟨t, rfl, h⟩

/-- An instruction that checks for its fault first raises it exactly when the check fails. -/
theorem faultsAs_check {c : Prop} [Decidable c] {b : OutOfBounds} {t : State} (h : ¬ t.isHalted) :
    FaultsAs s (if c then raise (.outOfBounds b) s else .next t) ((if c then some b else none).map .outOfBounds) := by
  split
  · rfl
  · exact faultsAs_next h

/-- A range-checked access faults exactly when it is of at least one byte and does not fit (20_memory.md R66). -/
theorem faultsAs_withRange {k : Nat} {c : Prop} [Decidable c] {done : State} (hc : c ↔ 0 < k ∧ s.i.toNat + k > 4096)
    (h : ¬ done.isHalted) :
    FaultsAs s (withRange k s done) ((if c then some (.memory s.i k) else none).map .outOfBounds) := by
  split
  · next hout =>
    obtain ⟨hk, hout⟩ := hc.mp hout
    exact withRange_of_not_inRange hk hout
  · next hin =>
    rw [hc] at hin
    rw [withRange_of_inRange (by simp only [memSize]; omega)]
    exact faultsAs_next h

/-- A key skip faults exactly when Vx numbers no key (44_timers_keypad.md R240). -/
theorem faultsAs_skipOnKey {want : Bool} {x : Reg} (h : ∀ c, ¬ (s.skipIf c).isHalted) :
    FaultsAs s (skipOnKey want x s)
      ((if (s.getV x).toNat > 15 then some (.keyIndex (s.getV x)) else none).map .outOfBounds) := by
  unfold skipOnKey
  split
  · next hnone =>
    rw [if_pos (keyNumber_eq_none.mp hnone)]
    rfl
  · next k hk =>
    rw [if_neg (Nat.not_lt.mpr (keyNumber_eq_some.mp hk).1)]
    exact faultsAs_next (h _)

theorem faultsAs_waitKey {p : Params} {x : Reg} (htake : ¬ (s.takeKey p x).isHalted) : FaultsAs s (waitKey p x s) none := by
  rw [waitKey]
  split
  · exact faultsAs_next htake
  · exact faultsAs_next fun ⟨_, hr⟩ => nomatch hr

/-- An instruction of a Running core raises exactly the fault the table gives it (60_exceptions.md R270, codes 3 to 7). -/
theorem execWith_faultsAs (hrun : s.status = .running) (p : Params) (i : Instr) :
    FaultsAs s (execWith p i s) ((faultOf s i).map .outOfBounds) := by
  have hkeep {t : State} (h : t.status = s.status) : ¬ t.isHalted := fun ⟨_, hr⟩ => nomatch (h.trans hrun).symm.trans hr
  cases i with
  | cls | jp | jpV0 | ldImm | addImm | ldReg | orReg | andReg | xorReg | addReg | subReg | shr | subnReg | shl | ldI | rnd
  | ldVxDT | ldDTVx | ldSTVx | ldF => exact faultsAs_next (hkeep rfl)
  | seImm | sneImm | seReg | sneReg => exact faultsAs_next (hkeep (s.skipIf_status _))
  | skp | sknp => exact faultsAs_skipOnKey fun c => hkeep (s.skipIf_status c)
  | ldVxK => exact faultsAs_waitKey (hkeep rfl)
  | call | ret | addI => exact faultsAs_check (hkeep rfl)
  | drw x y n => exact faultsAs_withRange Iff.rfl (hkeep rfl)
  | ldB | ldMemVx | ldVxMem => exact faultsAs_withRange (by simp) (hkeep rfl)

/-- A cycle of a Running core raises exactly the fault of the table, the fetch bound first, then the decode, then the
instruction's own (60_exceptions.md R275). -/
theorem stepWith_faultsAs (hrun : s.status = .running) (p : Params) : FaultsAs s (stepWith p s) (cycleFault p s) := by
  rw [stepWith, runCycle_running hrun]
  rcases runningCycle_eq p (execWith p) s with ⟨hout, hcycle⟩ | ⟨hpc, hdecode, hcycle⟩ | ⟨i, hpc, hdecode, hcycle⟩ <;>
    rw [hcycle]
  · simp only [cycleFault, hout, if_true]
    rfl
  · simp only [cycleFault, Nat.not_lt.mpr hpc, if_false, hdecode]
    rfl
  · simp only [cycleFault, Nat.not_lt.mpr hpc, if_false, hdecode]
    exact execWith_faultsAs hrun p i

end

/-- Settles O15: a cycle raises exactly the fault the table gives, and a fault is a Halted next state with its reason. -/
theorem cycleFaultsExactlyAsTabled : Obligations.CycleFaultsExactlyAsTabled :=
  fun p _ r hrun => (stepWith_faultsAs hrun p).halted_iff r

end Sys2Proof.Machine
end

section
/-! PROOFS. The statements of 30_encoding.md: the decoder against the encoder and the opcode map, and the cycle's fetch and
decode. -/

namespace Sys2Proof

/-! ### A word from the fields that select it -/

section
variable {w : Word}

theorem encodeA_of_fieldClass {c : Nibble} (hc : (fieldClass w).toNat = c.toNat) : encodeA c (fieldNNN w) = w := by
  rw [← BitVec.eq_of_toNat_eq hc]
  exact encodeA_fields w

theorem encodeXB_of_fieldClass {c : Nibble} (hc : (fieldClass w).toNat = c.toNat) :
    encodeXB c (fieldX w) (fieldNN w) = w := by
  rw [← BitVec.eq_of_toNat_eq hc]
  exact encodeXB_fields w

theorem encodeXY_of_fieldClass {c : Nibble} (hc : (fieldClass w).toNat = c.toNat) :
    encodeXY c (fieldX w) (fieldY w) (fieldN w) = w := by
  rw [← BitVec.eq_of_toNat_eq hc]
  exact encodeXY_fields w

/-- Class and low byte select a word of format `XS` (30_encoding.md R84). -/
theorem encodeXB_of_fieldNN {c : Nibble} {b : Byte} (hc : (fieldClass w).toNat = c.toNat)
    (hb : (fieldNN w).toNat = b.toNat) : encodeXB c (fieldX w) b = w := by
  rw [← BitVec.eq_of_toNat_eq hb]
  exact encodeXB_of_fieldClass hc

/-- Class and low nibble select a word of format `XY` (30_encoding.md R84). -/
theorem encodeXY_of_fieldN {c n : Nibble} (hc : (fieldClass w).toNat = c.toNat) (hn : (fieldN w).toNat = n.toNat) :
    encodeXY c (fieldX w) (fieldY w) n = w := by
  rw [← BitVec.eq_of_toNat_eq hn]
  exact encodeXY_of_fieldClass hc

/-- Mask 0xF000 fixes the class (30_encoding.md R91). -/
theorem fieldClass_of_mask {c : Nibble} (h : w &&& 0xF000 = encodeA c 0) : (fieldClass w).toNat = c.toNat := by
  rw [← encodeA_fields w, encodeA_mask] at h
  have hc : fieldClass w = c := by simpa using congrArg fieldClass h
  rw [hc]

/-- Mask 0xF0FF fixes the class and the low byte (30_encoding.md R91). -/
theorem encodeXB_of_mask {c : Nibble} {b : Byte} (h : w &&& 0xF0FF = encodeXB c 0 b) : encodeXB c (fieldX w) b = w := by
  rw [← encodeXB_fields w, encodeXB_mask] at h
  have hc : fieldClass w = c := by simpa using congrArg fieldClass h
  have hb : fieldNN w = b := by simpa using congrArg fieldNN h
  exact encodeXB_of_fieldNN (congrArg BitVec.toNat hc) (congrArg BitVec.toNat hb)

/-- Mask 0xF00F fixes the class and the low nibble (30_encoding.md R91). -/
theorem encodeXY_of_mask {c n : Nibble} (h : w &&& 0xF00F = encodeXY c 0 0 n) : encodeXY c (fieldX w) (fieldY w) n = w := by
  rw [← encodeXY_fields w, encodeXY_mask] at h
  have hc : fieldClass w = c := by simpa using congrArg fieldClass h
  have hn : fieldN w = n := by simpa using congrArg fieldN h
  exact encodeXY_of_fieldN (congrArg BitVec.toNat hc) (congrArg BitVec.toNat hn)

end

/-! ### The decoder undoes the encoder -/

/-- Settles O2: the fields of an instruction's word are its operands and its row's fixed bits. -/
theorem decodeEncodeRoundTrip : Obligations.DecodeEncodeRoundTrip := by
  intro sub i
  cases i with
  | cls | ret => cases sub <;> rfl
  | jp | call | ldI | jpV0 | seImm | sneImm | ldImm | addImm | rnd | drw | seReg | sneReg =>
    simp [encodeWith, decodeWith]
  | ldReg | orReg | andReg | xorReg | addReg | subReg | shr | subnReg | shl =>
    simp [encodeWith, decodeWith, decodeClass8]
  | skp | sknp => simp [encodeWith, decodeWith, decodeClassE]
  | ldVxMem => simp [encodeWith, decodeWith, decodeClassF]
  | ldVxDT | ldVxK | ldDTVx | ldSTVx | addI | ldF | ldB | ldMemVx =>
    cases sub <;> simp [encodeWith, decodeWith, decodeClassF, LoadSubcode.byte]

/-! ### The encoder undoes the decoder -/

section
variable {sub : LoadSubcode} {w : Word} {i : Instr}

theorem encodeWith_of_decodeClass0 (h : decodeClass0 w = some i) : encodeWith sub i = w := by
  unfold decodeClass0 at h
  split at h
  · next hw => cases h; exact hw.symm
  · split at h
    · next hw => cases h; exact hw.symm
    · cases h

theorem encodeWith_of_decodeClass8 (hc : (fieldClass w).toNat = 0x8) (h : decodeClass8 w = some i) :
    encodeWith sub i = w := by
  unfold decodeClass8 at h
  split at h <;> cases h
  all_goals exact encodeXY_of_fieldN hc ‹_›

theorem encodeWith_of_decodeClassE (hc : (fieldClass w).toNat = 0xE) (h : decodeClassE w = some i) :
    encodeWith sub i = w := by
  unfold decodeClassE at h
  split at h <;> cases h
  all_goals exact encodeXB_of_fieldNN hc ‹_›

theorem encodeWith_of_decodeClassF (hc : (fieldClass w).toNat = 0xF) (h : decodeClassF sub w = some i) :
    encodeWith sub i = w := by
  unfold decodeClassF at h
  split at h
  · next hb => cases h; exact encodeXB_of_fieldNN hc (congrArg BitVec.toNat hb)
  · split at h <;> cases h
    all_goals exact encodeXB_of_fieldNN hc ‹_›

end

/-- Settles O3: the fields the decoder reads, with the bits it selects by, are the whole word. -/
theorem encodeDecodeRoundTrip : Obligations.EncodeDecodeRoundTrip := by
  intro sub w i h
  unfold decodeWith at h
  split at h -- `h_1` to `h_16` are the classes 0 to F
  case h_1 => exact encodeWith_of_decodeClass0 h
  case h_9 hc => exact encodeWith_of_decodeClass8 hc h
  case h_15 hc => exact encodeWith_of_decodeClassE hc h
  case h_16 =>
    have hlt : (fieldClass w).toNat < 16 := (fieldClass w).isLt
    have hc : (fieldClass w).toNat = 0xF := by grind
    exact encodeWith_of_decodeClassF hc h
  case h_6 hc | h_10 hc =>
    split at h
    · next hn => cases h; exact encodeXY_of_fieldN hc (congrArg BitVec.toNat hn)
    · cases h
  case h_2 hc | h_3 hc | h_11 hc | h_12 hc => cases h; exact encodeA_of_fieldClass hc
  case h_14 hc => cases h; exact encodeXY_of_fieldClass hc
  all_goals cases h; exact encodeXB_of_fieldClass ‹_›

/-- The decoder answers exactly the instruction whose word it is given. -/
theorem decodeWith_eq_some_iff {sub : LoadSubcode} {w : Word} {i : Instr} :
    decodeWith sub w = some i ↔ encodeWith sub i = w :=
  ⟨encodeDecodeRoundTrip sub w i, fun h => h ▸ decodeEncodeRoundTrip sub i⟩

/-! ### The decoder and the opcode map -/

open Laws.RowMatch in
/-- Every instruction's word meets its own row (30_encoding.md R86, R91). -/
theorem rowMatch : ∀ i : Instr, Statement i
  | .cls => cls
  | .ret => ret
  | .jp _ => jp _
  | .call _ => call _
  | .seImm _ _ => seImm _ _
  | .sneImm _ _ => sneImm _ _
  | .seReg _ _ => seReg _ _
  | .ldImm _ _ => ldImm _ _
  | .addImm _ _ => addImm _ _
  | .ldReg _ _ => ldReg _ _
  | .orReg _ _ => orReg _ _
  | .andReg _ _ => andReg _ _
  | .xorReg _ _ => xorReg _ _
  | .addReg _ _ => addReg _ _
  | .subReg _ _ => subReg _ _
  | .shr _ _ => shr _ _
  | .subnReg _ _ => subnReg _ _
  | .shl _ _ => shl _ _
  | .sneReg _ _ => sneReg _ _
  | .ldI _ => ldI _
  | .jpV0 _ => jpV0 _
  | .rnd _ _ => rnd _ _
  | .drw _ _ _ => drw _ _ _
  | .skp _ => skp _
  | .sknp _ => sknp _
  | .ldVxDT _ => ldVxDT _
  | .ldVxK _ => ldVxK _
  | .ldDTVx _ => ldDTVx _
  | .ldSTVx _ => ldSTVx _
  | .addI _ => addI _
  | .ldF _ => ldF _
  | .ldB _ => ldB _
  | .ldMemVx _ => ldMemVx _
  | .ldVxMem _ => ldVxMem _

/-- No two rows have the same number (30_encoding.md R91). -/
theorem opcodeMap_number_injOn (sub : LoadSubcode) :
    ∀ row ∈ opcodeMap sub, ∀ row' ∈ opcodeMap sub, row.number = row'.number → row = row' := by
  cases sub <;> decide

/-- `w` is the word of an instruction of the given row. -/
def IsWordOfRow (sub : LoadSubcode) (w : Word) (row : OpcodeRow) : Prop :=
  ∃ i : Instr, encodeWith sub i = w ∧ i.rowNumber = row.number

section
variable {sub : LoadSubcode} {w : Word}

theorem isWordOfRow_of_opcodeRows1 :
    ∀ row ∈ opcodeRows1, w &&& row.mask = row.value → IsWordOfRow sub w row := by
  simp only [opcodeRows1, List.forall_mem_cons]
  exact ⟨fun h => ⟨.cls, h.symm.trans BitVec.and_allOnes, rfl⟩,
    fun h => ⟨.ret, h.symm.trans BitVec.and_allOnes, rfl⟩,
    fun h => ⟨.jp _, encodeA_of_fieldClass (fieldClass_of_mask h), rfl⟩,
    fun h => ⟨.call _, encodeA_of_fieldClass (fieldClass_of_mask h), rfl⟩,
    fun h => ⟨.seImm _ _, encodeXB_of_fieldClass (fieldClass_of_mask h), rfl⟩,
    fun h => ⟨.sneImm _ _, encodeXB_of_fieldClass (fieldClass_of_mask h), rfl⟩,
    fun h => ⟨.seReg _ _, encodeXY_of_mask h, rfl⟩,
    fun h => ⟨.ldImm _ _, encodeXB_of_fieldClass (fieldClass_of_mask h), rfl⟩,
    fun h => ⟨.addImm _ _, encodeXB_of_fieldClass (fieldClass_of_mask h), rfl⟩,
    List.forall_mem_nil _⟩

theorem isWordOfRow_of_opcodeRows2 :
    ∀ row ∈ opcodeRows2, w &&& row.mask = row.value → IsWordOfRow sub w row := by
  simp only [opcodeRows2, List.forall_mem_cons]
  exact ⟨fun h => ⟨.ldReg _ _, encodeXY_of_mask h, rfl⟩,
    fun h => ⟨.orReg _ _, encodeXY_of_mask h, rfl⟩,
    fun h => ⟨.andReg _ _, encodeXY_of_mask h, rfl⟩,
    fun h => ⟨.xorReg _ _, encodeXY_of_mask h, rfl⟩,
    fun h => ⟨.addReg _ _, encodeXY_of_mask h, rfl⟩,
    fun h => ⟨.subReg _ _, encodeXY_of_mask h, rfl⟩,
    fun h => ⟨.shr _ _, encodeXY_of_mask h, rfl⟩,
    fun h => ⟨.subnReg _ _, encodeXY_of_mask h, rfl⟩,
    fun h => ⟨.shl _ _, encodeXY_of_mask h, rfl⟩,
    fun h => ⟨.sneReg _ _, encodeXY_of_mask h, rfl⟩,
    List.forall_mem_nil _⟩

theorem isWordOfRow_of_opcodeRows3 :
    ∀ row ∈ opcodeRows3, w &&& row.mask = row.value → IsWordOfRow sub w row := by
  simp only [opcodeRows3, List.forall_mem_cons]
  exact ⟨fun h => ⟨.ldI _, encodeA_of_fieldClass (fieldClass_of_mask h), rfl⟩,
    fun h => ⟨.jpV0 _, encodeA_of_fieldClass (fieldClass_of_mask h), rfl⟩,
    fun h => ⟨.rnd _ _, encodeXB_of_fieldClass (fieldClass_of_mask h), rfl⟩,
    fun h => ⟨.drw _ _ _, encodeXY_of_fieldClass (fieldClass_of_mask h), rfl⟩,
    fun h => ⟨.skp _, encodeXB_of_mask h, rfl⟩,
    fun h => ⟨.sknp _, encodeXB_of_mask h, rfl⟩,
    List.forall_mem_nil _⟩

/-- Row 34's match, in format `XS` (30_encoding.md R89). -/
theorem blockLoad_match (sub : LoadSubcode) : (0xF0 : Byte) ++ sub.byte = encodeXB 0xF 0 sub.byte := by
  cases sub <;> rfl

theorem isWordOfRow_of_opcodeRows4 :
    ∀ row ∈ opcodeRows4 sub, w &&& row.mask = row.value → IsWordOfRow sub w row := by
  simp only [opcodeRows4, List.forall_mem_cons]
  exact ⟨fun h => ⟨.ldVxDT _, encodeXB_of_mask h, rfl⟩,
    fun h => ⟨.ldVxK _, encodeXB_of_mask h, rfl⟩,
    fun h => ⟨.ldDTVx _, encodeXB_of_mask h, rfl⟩,
    fun h => ⟨.ldSTVx _, encodeXB_of_mask h, rfl⟩,
    fun h => ⟨.addI _, encodeXB_of_mask h, rfl⟩,
    fun h => ⟨.ldF _, encodeXB_of_mask h, rfl⟩,
    fun h => ⟨.ldB _, encodeXB_of_mask h, rfl⟩,
    fun h => ⟨.ldMemVx _, encodeXB_of_mask h, rfl⟩,
    fun h => ⟨.ldVxMem _, encodeXB_of_mask (h.trans (blockLoad_match sub)), rfl⟩,
    List.forall_mem_nil _⟩

/-- A row's mask and match select exactly the words of its instruction (30_encoding.md R86). -/
theorem selects_iff_isWordOfRow {row : OpcodeRow} (hrow : row ∈ opcodeMap sub) :
    w &&& row.mask = row.value ↔ IsWordOfRow sub w row := by
  constructor
  · intro h
    have hmem := hrow
    simp only [opcodeMap, List.mem_append] at hmem
    obtain ((h1 | h2) | h3) | h4 := hmem
    · exact isWordOfRow_of_opcodeRows1 row h1 h
    · exact isWordOfRow_of_opcodeRows2 row h2 h
    · exact isWordOfRow_of_opcodeRows3 row h3 h
    · exact isWordOfRow_of_opcodeRows4 row h4 h
  · rintro ⟨i, rfl, hnumber⟩
    obtain ⟨row', hrow', hnumber', hselects⟩ := rowMatch i sub
    cases opcodeMap_number_injOn sub row hrow row' hrow' (hnumber.symm.trans hnumber'.symm)
    exact beq_iff_eq.mp hselects

/-- A word is the word of at most one row (30_encoding.md R86). -/
theorem IsWordOfRow.unique {row row' : OpcodeRow} (hrow : row ∈ opcodeMap sub) (hrow' : row' ∈ opcodeMap sub)
    (h : IsWordOfRow sub w row) (h' : IsWordOfRow sub w row') : row = row' := by
  obtain ⟨i, hi, hnumber⟩ := h
  obtain ⟨j, hj, hnumber'⟩ := h'
  rw [← decodeWith_eq_some_iff] at hi hj
  cases hi.symm.trans hj
  exact opcodeMap_number_injOn sub row hrow row' hrow' (hnumber.symm.trans hnumber')

/-- A word no row selects is an unknown opcode (30_encoding.md R92): a decoded instruction's own row would select it. -/
theorem decodeWith_eq_none_of_no_row (h : ∀ row ∈ opcodeMap sub, w &&& row.mask ≠ row.value) :
    decodeWith sub w = none := by
  refine Option.eq_none_iff_forall_ne_some.mpr fun i hi => ?_
  obtain ⟨row, hrow, _, hselects⟩ := rowMatch i sub
  rw [decodeWith_eq_some_iff.mp hi] at hselects
  exact h row hrow (beq_iff_eq.mp hselects)

end

/-- Settles O4: decoding inverts encoding, and a row selects exactly the words of its instruction. -/
theorem decoderFollowsOpcodeMap : Obligations.DecoderFollowsOpcodeMap := by
  intro sub w
  refine ⟨fun row hrow => ?_, fun row hrow row' hrow' h h' => ?_, decodeWith_eq_none_of_no_row⟩
  · simp only [decodeWith_eq_some_iff]
    exact selects_iff_isWordOfRow hrow
  · rw [selects_iff_isWordOfRow hrow] at h
    rw [selects_iff_isWordOfRow hrow'] at h'
    exact h.unique hrow hrow' h'

/-! ### LOAD_SUBCODE -/

/-- Only the block load's word depends on LOAD_SUBCODE (30_encoding.md R89). -/
theorem encodeWith_x65_eq_iff {w : Word} (hw : ∀ x : Reg, w ≠ encodeXB 0xF x 0x65 ∧ w ≠ encodeXB 0xF x 0x64)
    (i : Instr) : encodeWith .x65 i = w ↔ encodeWith .x64 i = w := by
  cases i with
  | ldVxMem x => exact iff_of_false (hw x).1.symm (hw x).2.symm
  | _ => exact Iff.rfl

/-- The block load's word is unknown under the other LOAD_SUBCODE: no row of class F has its low byte. -/
theorem decodeWith_other_subcode (x : Reg) :
    decodeWith .x65 (encodeXB 0xF x 0x64) = none ∧ decodeWith .x64 (encodeXB 0xF x 0x65) = none := by
  constructor <;> simp [decodeWith, decodeClassF, LoadSubcode.byte]

/-- Settles O5: the round trip decodes each block load, and any other word encodes the same instruction under both values. -/
theorem loadSubcodeSelectsBlockLoad : Obligations.LoadSubcodeSelectsBlockLoad := by
  refine ⟨fun x => ?_, fun w hw => ?_, rfl⟩
  · obtain ⟨h65, h64⟩ := decodeWith_other_subcode x
    exact ⟨decodeEncodeRoundTrip .x65 (.ldVxMem x), h65, decodeEncodeRoundTrip .x64 (.ldVxMem x), h64⟩
  · refine Option.ext fun i => ?_
    rw [decodeWith_eq_some_iff, decodeWith_eq_some_iff]
    exact encodeWith_x65_eq_iff hw i

/-! ### Words of the spec -/

/-- Settles O1: each word is decoded. -/
theorem specWordsDecode : Obligations.SpecWordsDecode := by
  unfold Obligations.SpecWordsDecode
  decide

end Sys2Proof

namespace Sys2Proof.Machine

open Sys2Proof.Claims

/-! ### The cycle -/

/-- A cycle of a Running core that the fault table gives a fault halts for its reason. -/
theorem stepWith_haltedAs {p : Params} {s : State} {r : HaltReason} (hrun : s.status = .running)
    (hfault : cycleFault p s = some r) : ∃ t, stepWith p s = .next t ∧ HaltedAs r s t := by
  have hraise : FaultsAs s (stepWith p s) (cycleFault p s) := stepWith_faultsAs hrun p
  rw [hfault] at hraise
  exact ⟨_, hraise, haltedAs_halt r s⟩

/-- Settles O9: a word no row selects does not decode, which the fault table tells as an unknown opcode. -/
theorem unknownOpcodeHalts : Obligations.UnknownOpcodeHalts := by
  intro p s hrun hpc hrows
  have hfault : cycleFault p s = some (.unknownOpcode (fetchWord s)) := by
    rw [cycleFault, if_neg (Nat.not_lt.mpr hpc), decodeWith_eq_none_of_no_row hrows]
  exact stepWith_haltedAs hrun hfault

/-- No instruction's own fault is a fetch (60_exceptions.md R270, codes 3 to 7). -/
theorem faultOf_ne_fetch (s : State) (i : Instr) (a : Word) : faultOf s i ≠ some (.fetch a) := by
  have hcheck {c : Prop} [Decidable c] {b : OutOfBounds} (hb : b ≠ .fetch a) :
      (if c then some b else none) ≠ some (.fetch a) := by simp [hb]
  cases i with
  | drw | ldB | ldMemVx | ldVxMem | call | ret | skp | sknp | addI => exact hcheck nofun
  | _ => exact nofun

/-- The fault of a cycle whose fetch is in range is no fetch fault (60_exceptions.md R275). -/
theorem cycleFault_ne_fetch {p : Params} {s : State} (hpc : s.pc.toNat ≤ 0xFFE) (a : Word) :
    cycleFault p s ≠ some (.outOfBounds (.fetch a)) := by
  rw [cycleFault, if_neg (Nat.not_lt.mpr hpc)]
  split
  · simp
  · simp [faultOf_ne_fetch]

/-- Settles O10: the fault table gives the fetch fault to exactly the cycles with pc above 0xFFE. -/
theorem fetchBeyondMemoryHalts : Obligations.FetchBeyondMemoryHalts := by
  intro p s hrun
  constructor
  · intro hout
    exact stepWith_haltedAs hrun (if_pos hout)
  · intro hpc t h a hhalt
    exact cycleFault_ne_fetch hpc a ((cycleFaultsExactlyAsTabled p s _ hrun).mp ⟨t, h, hhalt⟩)

/-- Raising a fault answers a next state too (60_exceptions.md R273). -/
theorem FaultsAs.next {s : State} {o : Result} {f : Option HaltReason} (h : FaultsAs s o f) : ∃ t, o = .next t := by
  cases f with
  | some r => exact ⟨s.halt r, h⟩
  | none =>
    obtain ⟨t, ht, _⟩ := h
    exact ⟨t, ht⟩

/-- Settles O13: a Running cycle completes or raises a fault, and in the other statuses nothing is executed. -/
theorem everyCycleAnswersNextState : Obligations.EveryCycleAnswersNextState := by
  intro p s
  cases hs : s.status with
  | running => exact (stepWith_faultsAs hs p).next
  | awaitingKey x => exact ⟨_, runCycle_awaitingKey hs⟩
  | halted r => exact ⟨s, runCycle_halted hs⟩

end Sys2Proof.Machine
end

section
/-! PROOFS. The statements of 40_control_flow.md: skips, jumps, the call stack, and the three hangs of 60_exceptions.md R289. -/

namespace Sys2Proof.Machine

open Sys2Proof.Claims

/-! ### Hangs -/

/-- With no key pressed, the keypad's scan finds none (44_timers_keypad.md R242). -/
theorem anyPressed_eq_false {keys : Keys} (h : ∀ k, keys.pressed k = false) : keys.anyPressed = false := by
  rw [← Bool.not_eq_true, Keys.anyPressed_iff]
  rintro ⟨k, hk⟩
  exact Bool.false_ne_true ((h k).symm.trans hk)

/-- A wait with no key pressed goes on (44_timers_keypad.md R243). -/
theorem stepWith_of_waitsForKey {s : State} (p : Params) (h : s.waitsForKey) : stepWith p s = .next s := by
  obtain ⟨⟨x, hwait⟩, hnone⟩ := h
  have hstay : awaitKeyStep p x s = s := by simp [awaitKeyStep, hnone]
  rw [stepWith, runCycle_awaitingKey hwait, hstay]

/-- The cycle of a state that executes `i` is `i`'s meaning (30_encoding.md R97). -/
theorem stepWith_of_executes {p : Params} {s : State} {i : Instr} (h : s.executes p i) : stepWith p s = execWith p i s := by
  obtain ⟨hrun, hfetch, hdecode⟩ := h
  rw [stepWith, runCycle_running hrun]
  simp [runningCycle, hfetch, hdecode]

/-- A jump to itself changes nothing: it writes to pc the address that stands there (40_control_flow.md R112). -/
theorem stepWith_of_jumpsToItself {p : Params} {s : State} (h : s.jumpsToItself p) : stepWith p s = .next s := by
  obtain ⟨nnn, hjp, hpc⟩ := h
  calc stepWith p s
      = .next (s.jumpTo (zextAddr nnn)) := stepWith_of_executes hjp
    _ = .next (s.jumpTo s.pc) := by rw [hpc]
    _ = .next s := rfl

/-- A loop of cycles that executes a `Fx07` on its way executes it in every round (60_exceptions.md R289). -/
theorem pollsDelayTimer_of_loop {p : Params} {s t : State} {m n : Nat} {x : Reg} (hmn : m < n)
    (hreach : cycles p m s = .next t) (hpoll : t.executes p (.ldVxDT x)) (hloop : cycles p n s = .next s) :
    s.pollsDelayTimer p := by
  intro k
  have hlate : k ≤ k * n + m := (Nat.le_mul_of_pos_right k (by omega)).trans (Nat.le_add_right _ m)
  exact ⟨k * n + m, hlate, t, x, cycles_add_eq_next.mpr ⟨s, cycles_recur hloop k, hreach⟩, hpoll⟩

@[simp] theorem zextAddr_toNat (nnn : Addr) : (zextAddr nnn).toNat = nnn.toNat := BitVec.toNat_setWidth_of_le (by decide)

/-- Settles O17: the wait and the self jump are fixed points of the cycle, and the loop comes back to its `Fx07`. -/
theorem waitsAndLoopsAreHangs : Obligations.WaitsAndLoopsAreHangs := by
  intro p s
  refine ⟨?_, ?_, ?_⟩
  · intro x hwait hkeys
    have hhang : s.waitsForKey := ⟨⟨x, hwait⟩, anyPressed_eq_false hkeys⟩
    exact ⟨stepWith_of_waitsForKey p hhang, .inl hhang⟩
  · intro nnn hjp hpc
    have hhang : s.jumpsToItself p := ⟨nnn, hjp, BitVec.eq_of_toNat_eq (hpc.trans (zextAddr_toNat nnn).symm)⟩
    exact ⟨stepWith_of_jumpsToItself hhang, .inr (.inl hhang)⟩
  · intro m n t x hmn hreach hpoll hloop
    exact .inr (.inr (pollsDelayTimer_of_loop hmn hreach hpoll hloop))

/-! ### Skips and jumps -/

/-- An instruction that is `skip_if(c)` skips exactly when `c` holds (40_control_flow.md R110). -/
theorem skips_of_exec_eq {i : Instr} {c : State → Prop} {b : State → Bool}
    (hexec : ∀ s, exec i s = .next (s.skipIf (b s))) (hb : ∀ s, b s = true ↔ c s) : Skips i c := by
  intro s
  refine ⟨s.skipIf (b s), hexec s, ?_, ?_, onlyChanges_skipIf s (b s)⟩
  · intro hc
    rw [State.skipIf_pc, if_pos ((hb s).mpr hc)]
  · intro hc
    rw [State.skipIf_pc, if_neg (mt (hb s).mp hc)]

/-- Settles O32: each is `skip_if` of its comparison. -/
theorem skipsCompareRegisters : Obligations.SkipsCompareRegisters :=
  ⟨fun _ _ => skips_of_exec_eq (fun _ => rfl) (fun _ => beq_iff_eq),
    fun _ _ => skips_of_exec_eq (fun _ => rfl) (fun _ => bne_iff_ne),
    fun _ _ => skips_of_exec_eq (fun _ => rfl) (fun _ => beq_iff_eq),
    fun _ _ => skips_of_exec_eq (fun _ => rfl) (fun _ => bne_iff_ne)⟩

/-- The target of `Bnnn` is the exact sum, which fits in 16 bits (40_control_flow.md R118). -/
theorem indexedTarget_toNat (nnn : Addr) (v0 : Byte) : (indexedTarget nnn v0).toNat = nnn.toNat + v0.toNat + 2 := by
  have hnnn := nnn.isLt
  have hv0 := v0.isLt
  have hzextAddr := zextAddr_toNat nnn
  have hzextByte : (zextByte v0).toNat = v0.toNat := BitVec.toNat_setWidth_of_le (by decide)
  rw [indexedTarget]
  bv_omega

/-- Settles O33: both are a jump, to the zero-extended nnn and to the indexed target. -/
theorem jumpsSetPc : Obligations.JumpsSetPc :=
  ⟨fun nnn s => ⟨_, rfl, zextAddr_toNat nnn, onlyChanges_jumpTo s _⟩,
    fun nnn s => ⟨_, rfl, indexedTarget_toNat nnn (s.getV 0), onlyChanges_jumpTo s _⟩⟩

/-! ### The call stack -/

/-- Settles O34: a CALL with room pushes pc and jumps, and the push writes the entry at the old depth alone. -/
theorem callPushesItsAddress : Obligations.CallPushesItsAddress := by
  intro nnn s
  constructor
  · intro hroom
    have hexec : exec (.call nnn) s = .next ((s.push s.pc).jumpTo (zextAddr nnn)) := if_neg (Nat.ne_of_lt hroom)
    refine ⟨_, hexec, ?_, ?_, s.push_sp s.pc hroom, zextAddr_toNat nnn, onlyChanges_push_jumpTo s _ _⟩
    · rw [State.stackEntry_jumpTo, State.stackEntry_push _ _ _ hroom, if_pos rfl]
    · intro k hk
      rw [State.stackEntry_jumpTo, State.stackEntry_push _ _ _ hroom, if_neg hk]
  · intro hfull
    exact ⟨_, if_pos hfull, haltedAs_halt _ s⟩

/-- Settles O35: the popped address is the entry below the old depth, which the pop leaves in place. -/
theorem returnPopsAndAddsTwo : Obligations.ReturnPopsAndAddsTwo := by
  intro s
  constructor
  · intro hpos
    have hexec : exec .ret s = .next (s.pop.jumpTo (s.pop.stackEntry s.pop.sp.val + 2)) := if_neg (Nat.ne_of_gt hpos)
    refine ⟨_, hexec, s.pop_sp, ?_, onlyChanges_pop_jumpTo s _⟩
    rw [State.jumpTo_pc, State.stackEntry_pop, State.pop_sp]
  · intro hempty
    exact ⟨_, if_pos hempty, haltedAs_halt _ s⟩

theorem Part.same.trans {s t u : State} {part : Part} (hst : part.same s t) (htu : part.same t u) : part.same s u := by
  cases part with
  | mem | v | stack => exact fun k => (htu k).trans (hst k)
  | _ => exact Eq.trans htu hst

/-- Two transitions change at most what one of them may change. -/
theorem OnlyChanges.trans {ps : List Part} {s t u : State} (hst : OnlyChanges ps s t) (htu : OnlyChanges ps t u) :
    OnlyChanges ps s u := fun q hq => (hst q hq).trans (htu q hq)

/-- A part that holds again what it held is no part that changed. -/
theorem OnlyChanges.restore {ps : List Part} {s t : State} {part : Part} (h : OnlyChanges ps s t) (hsame : part.same s t) :
    OnlyChanges (ps.filter (· ≠ part)) s t := by
  intro q hq
  by_cases hpart : q = part
  · exact hpart ▸ hsame
  · exact h q fun hmem => hq (List.mem_filter.mpr ⟨hmem, by simpa using hpart⟩)

/-- Settles O36: the RET pops the entry the CALL pushed, which undoes the change of SP. -/
theorem callThenReturnResumes : Obligations.CallThenReturnResumes := by
  intro nnn s hroom
  obtain ⟨t, hcall, hentry, _, htsp, _, hst⟩ := (callPushesItsAddress nnn s).1 hroom
  obtain ⟨u, hret, husp, hupc, htu⟩ := (returnPopsAndAddsTwo t).1 (by omega)
  have hdepth : t.sp.val - 1 = s.sp.val := by omega
  have hsp : u.sp = s.sp := Fin.ext (husp.trans hdepth)
  have hpc : u.pc = s.pc + 2 := by rw [hupc, hdepth, hentry]
  have hframe : OnlyChanges [.stack, .sp, .pc] s u := hst.trans (htu.mono (by simp))
  exact ⟨t, u, hcall, hret, hpc, hsp, hframe.restore (part := .sp) hsp⟩

end Sys2Proof.Machine
end

section
/-! PROOFS. The statements of 41_register_alu.md: loads, logic, arithmetic with and without a flag, shifts, random. -/

namespace Sys2Proof.Machine

open Sys2Proof.Claims

/-! ### The two shapes of an ALU instruction -/

/-- An instruction that is one register write and the default advance changes no other register (30_encoding.md R90). -/
theorem writesReg_of_exec_eq {i : Instr} {x : Reg} {val res : State → Byte}
    (hexec : ∀ s, exec i s = .next (s.setV x (res s)).advance) (hval : ∀ s, res s = val s) : WritesReg i x val := by
  intro s
  refine ⟨_, hexec s, ?_, ?_, rfl, onlyChanges_setV_advance s x (res s)⟩
  · rw [State.getV_advance, State.getV_setV_same, hval]
  · intro r hr
    rw [State.getV_advance, State.getV_setV_ne s hr]

/-- An instruction of the common form writes the flag first and lets the result stand (41_register_alu.md R140). -/
theorem writesFlagAndReg_of_exec_eq {i : Instr} {x : Reg} {flag val f res : State → Byte}
    (hexec : ∀ s, exec i s = .next (s.setFlagThen (f s) x (res s)).advance) (hflag : ∀ s, f s = flag s)
    (hval : ∀ s, res s = val s) : WritesFlagAndReg i x flag val := by
  intro s
  refine ⟨_, hexec s, ?_, ?_, ?_, rfl, onlyChanges_setFlagThen_advance s (f s) x (res s)⟩
  · rw [State.getV_advance, State.getV_setFlagThen, if_pos rfl, hval]
  · intro hx
    rw [State.getV_advance, State.getV_setFlagThen, regF, if_neg hx.symm, if_pos rfl, hflag]
  · intro r hr hrF
    rw [State.getV_advance, State.getV_setFlagThen, regF, if_neg hr, if_neg hrF]

/-! ### Byte arithmetic as numbers (10_state.md R23) -/

theorem byte_add_eq_ofNat (a b : Byte) : a + b = BitVec.ofNat 8 ((a.toNat + b.toNat) % 256) :=
  BitVec.eq_of_toNat_eq (by simp)

/-- The difference wraps as the integer difference modulo 256, below zero too. -/
theorem byte_sub_eq_ofInt (a b : Byte) : a - b = BitVec.ofInt 8 ((a.toNat - b.toNat : Int) % 256) := by
  apply BitVec.eq_of_toNat_eq
  have ha := a.isLt
  have hb := b.isLt
  rw [BitVec.toNat_sub, BitVec.toNat_ofInt]
  omega

theorem byte_ushiftRight_one_eq_ofNat (a : Byte) : a >>> 1 = BitVec.ofNat 8 (a.toNat / 2) := by
  apply BitVec.eq_of_toNat_eq
  have ha := a.isLt
  rw [BitVec.toNat_ushiftRight, BitVec.toNat_ofNat, Nat.shiftRight_eq_div_pow]
  omega

theorem byte_shiftLeft_one_eq_ofNat (a : Byte) : a <<< 1 = BitVec.ofNat 8 (a.toNat * 2 % 256) := by
  apply BitVec.eq_of_toNat_eq
  rw [BitVec.toNat_shiftLeft, BitVec.toNat_ofNat, Nat.shiftLeft_eq]
  omega

/-- The bit a right shift moves out is the remainder (41_register_alu.md R149). -/
theorem lowBitFlag_eq_ofNat (a : Byte) : lowBitFlag a = BitVec.ofNat 8 (a.toNat % 2) := by
  apply BitVec.eq_of_toNat_eq
  have hbit : (lowBitFlag a).toNat = a.toNat % 2 := Nat.and_one_is_mod a.toNat
  rw [hbit, BitVec.toNat_ofNat]
  omega

/-- The bit a left shift moves out is the quotient by 128, which is below 2 (41_register_alu.md R151). -/
theorem highBitFlag_eq_ofNat (a : Byte) : highBitFlag a = BitVec.ofNat 8 (a.toNat / 128) := by
  have ha := a.isLt
  have hshift : (a >>> 7).toNat = a.toNat / 128 := by
    rw [BitVec.toNat_ushiftRight, Nat.shiftRight_eq_div_pow]
  calc highBitFlag a
      = BitVec.ofNat 8 ((a >>> 7).toNat % 2) := lowBitFlag_eq_ofNat (a >>> 7)
    _ = BitVec.ofNat 8 (a.toNat / 128) := by rw [hshift, Nat.mod_eq_of_lt (by omega)]

/-! ### Loads, adds and logic -/

/-- Settles O37: both write one register. -/
theorem loadsWriteRegister : Obligations.LoadsWriteRegister :=
  ⟨fun _ _ => writesReg_of_exec_eq (fun _ => rfl) (fun _ => rfl),
    fun _ _ => writesReg_of_exec_eq (fun _ => rfl) (fun _ => rfl)⟩

/-- Settles O38: the byte sum is the sum modulo 256, and Vx is the one register written. -/
theorem addImmediateWraps : Obligations.AddImmediateWraps :=
  fun x nn => writesReg_of_exec_eq (fun _ => rfl) (fun s => byte_add_eq_ofNat (s.getV x) nn)

/-- Settles O39: each form writes one register, and a byte's bitwise operation is that operation on each bit. -/
theorem logicIsBitwise : Obligations.LogicIsBitwise := by
  intro x y s
  have hor : WritesReg (.orReg x y) x (fun s => s.getV x ||| s.getV y) :=
    writesReg_of_exec_eq (fun _ => rfl) (fun _ => rfl)
  have hand : WritesReg (.andReg x y) x (fun s => s.getV x &&& s.getV y) :=
    writesReg_of_exec_eq (fun _ => rfl) (fun _ => rfl)
  have hxor : WritesReg (.xorReg x y) x (fun s => s.getV x ^^^ s.getV y) :=
    writesReg_of_exec_eq (fun _ => rfl) (fun _ => rfl)
  obtain ⟨t, ht, htx, htr, htpc, htframe⟩ := hor s
  obtain ⟨u, hu, hux, hur, hupc, huframe⟩ := hand s
  obtain ⟨w, hw, hwx, hwr, hwpc, hwframe⟩ := hxor s
  refine ⟨t, u, w, ht, hu, hw, ?_, ?_, ?_, fun r hr => ⟨htr r hr, hur r hr, hwr r hr⟩, htpc, hupc, hwpc, htframe,
    huframe, hwframe⟩
  · exact fun k => by rw [htx, BitVec.getLsbD_or]
  · exact fun k => by rw [hux, BitVec.getLsbD_and]
  · exact fun k => by rw [hwx, BitVec.getLsbD_xor]

/-! ### Arithmetic and shifts with a flag -/

/-- Settles O40: the carry is the model's own, and the byte sum is the sum modulo 256. -/
theorem addSetsCarry : Obligations.AddSetsCarry :=
  fun x y => writesFlagAndReg_of_exec_eq (fun _ => rfl) (fun _ => rfl)
    (fun s => byte_add_eq_ofNat (s.getV x) (s.getV y))

/-- Settles O41: the byte difference is the integer difference modulo 256, with the operands in the two orders. -/
theorem subtractionsSetNoBorrow : Obligations.SubtractionsSetNoBorrow :=
  ⟨fun x y => writesFlagAndReg_of_exec_eq (fun _ => rfl) (fun _ => rfl)
      (fun s => byte_sub_eq_ofInt (s.getV x) (s.getV y)),
    fun x y => writesFlagAndReg_of_exec_eq (fun _ => rfl) (fun _ => rfl)
      (fun s => byte_sub_eq_ofInt (s.getV y) (s.getV x))⟩

/-- Settles O42: a shift is a division or a doubling, its flag the bit that leaves; neither meaning reads y. -/
theorem shiftsMoveOneBitOut : Obligations.ShiftsMoveOneBitOut :=
  ⟨fun x _ => writesFlagAndReg_of_exec_eq (fun _ => rfl) (fun s => lowBitFlag_eq_ofNat (s.getV x))
      (fun s => byte_ushiftRight_one_eq_ofNat (s.getV x)),
    fun x _ => writesFlagAndReg_of_exec_eq (fun _ => rfl) (fun s => highBitFlag_eq_ofNat (s.getV x))
      (fun s => byte_shiftLeft_one_eq_ofNat (s.getV x)),
    fun _ _ _ _ => ⟨rfl, rfl⟩⟩

/-! ### Random -/

/-- A draw changes the counter of draws alone (41_register_alu.md R160). -/
theorem onlyChanges_drawByte (p : Params) (s : State) : OnlyChanges [.draws] s (drawByte p s).2 :=
  (onlyChanges_iff _ _ _).mpr (by simp [drawByte, State.readByte, State.stackEntry, State.getV])

/-- `Cxnn` is one draw, then one register write (41_register_alu.md R160). -/
theorem execWith_rnd (p : Params) (x : Reg) (nn : Byte) (s : State) : ∃ t, execWith p (.rnd x nn) s = .next t ∧
    t.getV x = p.random s.draws &&& nn ∧ (∀ r, r ≠ x → t.getV r = s.getV r) ∧ t.draws = s.draws + 1 ∧
    t.pc = s.pc + 2 ∧ OnlyChanges [.v, .pc, .draws] s t := by
  refine ⟨((drawByte p s).2.setV x (p.random s.draws &&& nn)).advance, rfl, ?_, ?_, rfl, rfl, ?_⟩
  · rw [State.getV_advance, State.getV_setV_same]
  · intro r hr
    rw [State.getV_advance, State.getV_setV_ne _ hr]
    exact onlyChanges_drawByte p s .v (by simp) r
  · have hdraw : OnlyChanges [.v, .pc, .draws] s (drawByte p s).2 := (onlyChanges_drawByte p s).mono (by simp)
    exact hdraw.trans ((onlyChanges_setV_advance _ x _).mono (by simp))

/-- Settles O43: the default executor is the one whose source is the machine's own bytes. -/
theorem randomByteIsMasked : Obligations.RandomByteIsMasked := by
  intro x nn s
  rw [← execWith_default (.rnd x nn) s]
  exact ⟨execWith_rnd defaultParams x nn s, fun p => execWith_rnd p x nn s⟩

end Sys2Proof.Machine
end

section
/-! PROOFS. The statements of 42_index_memory.md: the index register, the decimal store, the block store and the block load. -/

namespace Sys2Proof.Machine

open Sys2Proof.Claims

/-! ### The index register -/

/-- A write of I and the default advance (30_encoding.md R90). -/
theorem onlyChanges_setI_advance (s : State) (w : Word) : OnlyChanges [.i, .pc] s (State.advance { s with i := w }) :=
  (onlyChanges_iff _ _ _).mpr (by simp [State.readByte, State.stackEntry, State.getV])

/-- Settles O44: the address is zero-extended into I. -/
theorem indexIsLoaded : Obligations.IndexIsLoaded :=
  fun nnn s => ⟨_, rfl, zextAddr_toNat nnn, rfl, onlyChanges_setI_advance s _⟩

/-- Five times a byte fits in 16 bits, so the glyph's address is the exact product. -/
theorem glyphAddress_toNat (b : Byte) : (glyphAddress b).toNat = b.toNat * 5 := by
  have hb := b.isLt
  rw [glyphAddress, BitVec.toNat_ofNat]
  omega

/-- Settles O45: I is the glyph's address for the whole of Vx. -/
theorem glyphAddressIsUnmasked : Obligations.GlyphAddressIsUnmasked :=
  fun x s => ⟨_, rfl, glyphAddress_toNat (s.getV x), rfl, onlyChanges_setI_advance s _⟩

@[simp] theorem zextByte_toNat (b : Byte) : (zextByte b).toNat = b.toNat := BitVec.toNat_setWidth_of_le (by decide)

/-- Settles O46: the model's check is on the exact sum, so a sum that passes it does not wrap. -/
theorem indexAddIsExactOrHalts : Obligations.IndexAddIsExactOrHalts := by
  intro x s
  constructor
  · intro hfits
    refine ⟨_, if_neg (Nat.not_lt.mpr hfits), ?_, rfl, onlyChanges_setI_advance s _⟩
    calc (s.i + zextByte (s.getV x)).toNat
        = (s.i.toNat + (zextByte (s.getV x)).toNat) % 2 ^ 16 := BitVec.toNat_add _ _
      _ = s.i.toNat + (s.getV x).toNat := by rw [zextByte_toNat, Nat.mod_eq_of_lt (Nat.lt_succ_of_le hfits)]
  · intro hover
    exact ⟨_, if_pos hover, haltedAs_halt _ s⟩

/-! ### Accesses through I -/

/-- An access of at least one byte that does not fit halts before it does its work (20_memory.md R66). -/
theorem withRange_haltedAs {k : Nat} {s done : State} (hk : 0 < k) (hout : s.i.toNat + k > 4096) :
    ∃ t, withRange k s done = .next t ∧ HaltedAs (.outOfBounds (.memory s.i k)) s t :=
  ⟨_, withRange_of_not_inRange hk hout, haltedAs_halt _ s⟩

theorem State.readByte_writeBytes_inside (s : State) (a k : Nat) (bs : List Byte) (h : k < bs.length) :
    (s.writeBytes a bs).readByte (a + k) = bs[k] := Memory.read_writeBytes_inside bs s.mem a k h

theorem State.readByte_writeBytes_outside (s : State) (a : Nat) (bs : List Byte) {c : Nat} (h : c < a ∨ a + bs.length ≤ c) :
    (s.writeBytes a bs).readByte c = s.readByte c := Memory.read_writeBytes_outside bs s.mem a c h

/-! ### The decimal store -/

theorem bcdHundreds_toNat (b : Byte) : (bcdHundreds b).toNat = b.toNat / 100 := by
  have hb := b.isLt
  rw [bcdHundreds, BitVec.toNat_ofNat]
  omega

theorem bcdTens_toNat (b : Byte) : (bcdTens b).toNat = b.toNat / 10 % 10 := by
  rw [bcdTens, BitVec.toNat_ofNat]
  omega

theorem bcdThird_standard_toNat (b : Byte) : (bcdThird .standard b).toNat = b.toNat % 10 := by
  rw [bcdThird, BitVec.toNat_ofNat]
  omega

theorem bcdThird_reference_toNat (b : Byte) : (bcdThird .reference b).toNat = b.toNat / 100 % 10 := by
  rw [bcdThird, BitVec.toNat_ofNat]
  omega

/-- Settles O47: a store that fits writes the three digits in order at I, the third by BCD_MODE. -/
theorem decimalDigitsAreStored : Obligations.DecimalDigitsAreStored := by
  intro p x s
  constructor
  · intro hfits
    have hread (k : Nat) (hk : k < 3) := s.readByte_writeBytes_inside s.i.toNat k (bcdDigits p.bcdMode (s.getV x)) hk
    refine ⟨_, withRange_of_inRange (.inr hfits), ?_, ?_, ?_, ?_, ?_, rfl, onlyChanges_writeBytes_advance s _ _⟩
    · exact (congrArg BitVec.toNat (hread 0 (by decide))).trans (bcdHundreds_toNat _)
    · exact (congrArg BitVec.toNat (hread 1 (by decide))).trans (bcdTens_toNat _)
    · intro hmode
      rw [State.readByte_advance, hread 2 (by decide), hmode]
      exact bcdThird_standard_toNat _
    · intro hmode
      rw [State.readByte_advance, hread 2 (by decide), hmode]
      exact bcdThird_reference_toNat _
    · exact fun a ha => s.readByte_writeBytes_outside s.i.toNat _ ha
  · exact withRange_haltedAs (by decide)

/-! ### The block store and the block load -/

/-- Settles O49: a store that fits writes the list V0..Vx at I. -/
theorem blockStoreWritesRegisters : Obligations.BlockStoreWritesRegisters := by
  intro x s
  constructor
  · intro hfits
    refine ⟨_, withRange_of_inRange (.inr hfits), ?_, ?_, rfl, onlyChanges_writeBytes_advance s _ _⟩
    · exact fun j hj => readByte_writeBytes_regList s hj
    · exact fun a ha => s.readByte_writeBytes_outside s.i.toNat (regList s x) (by rwa [regList_length])
  · exact withRange_haltedAs x.toNat.succ_pos

/-- A write of registers and the default advance (30_encoding.md R90). -/
theorem onlyChanges_setRegs_advance (s : State) (v : Vector Byte 16) :
    OnlyChanges [.v, .pc] s (State.advance { s with v := v }) :=
  (onlyChanges_iff _ _ _).mpr (by simp [State.readByte, State.stackEntry])

/-- The block load writes V0..V(k-1), each from its own byte, and keeps the registers above (42_index_memory.md R185). -/
theorem getV_loadRegs (s : State) (a k : Nat) (j : Reg) :
    State.getV { s with v := loadRegs s.mem a k s.v } j = if j.toNat < k then s.readByte (a + j.toNat) else s.getV j :=
  loadRegs_getElem s.mem a k s.v j.toNat j.isLt

/-- Settles O50: a load that fits reads V0..Vx, x included, from I on. -/
theorem blockLoadReadsRegisters : Obligations.BlockLoadReadsRegisters := by
  intro x s
  constructor
  · intro hfits
    refine ⟨_, withRange_of_inRange (.inr hfits), ?_, ?_, rfl, onlyChanges_setRegs_advance s _⟩
    · intro j hj
      rw [State.getV_advance, getV_loadRegs, if_pos (Nat.lt_succ_of_le hj)]
    · intro j hj
      rw [State.getV_advance, getV_loadRegs, if_neg (by omega)]
  · exact withRange_haltedAs x.toNat.succ_pos

end Sys2Proof.Machine
end

section
/-! PROOFS. The statements of 43_display.md: clear screen and the sprite. -/

namespace Sys2Proof.Machine

open Sys2Proof.Claims

/-! ### Clear screen -/

/-- Settles O52: every pixel of the new framebuffer reads as off, whatever the old one held. -/
theorem clearScreenClearsEveryPixel : Obligations.ClearScreenClearsEveryPixel := by
  intro s
  refine ⟨_, rfl, fun k => lit_clear k, rfl, rfl, ?_⟩
  exact (onlyChanges_iff _ _ _).mpr (by simp [State.readByte, State.stackEntry, State.getV])

/-! ### The sprite's rows and the pixels they cover -/

@[simp] theorem Memory.readBytes_length (m : Memory) (a k : Nat) : (m.readBytes a k).length = k := by
  induction k generalizing a with
  | zero => rfl
  | succ k ih => exact congrArg Nat.succ (ih (a + 1))

theorem Memory.readBytes_getElem (m : Memory) (a k r : Nat) (h : r < (m.readBytes a k).length) :
    (m.readBytes a k)[r] = m.read (a + r) := by
  induction k generalizing a r with
  | zero => exact absurd h (Nat.not_lt_zero r)
  | succ k ih =>
    cases r with
    | zero => rfl
    | succ r =>
      calc (m.readBytes (a + 1) k)[r]'(Nat.lt_of_succ_lt_succ h)
          = m.read (a + 1 + r) := ih (a + 1) r _
        _ = m.read (a + (r + 1)) := by rw [Nat.add_assoc, Nat.add_comm 1 r]

/-- The rows the rasterizer draws cover exactly the pixels the spec's loops name (43_display.md R211). -/
theorem rowsCover_readBytes_iff (s : State) (x y : Reg) (n : Nibble) (k : Nat) :
    rowsCover (spriteStart (s.getV x) (s.getV y)) (s.readBytes s.i.toNat n.toNat) k ↔ SpriteCovers s x y n k := by
  have hlen : (s.readBytes s.i.toNat n.toNat).length = n.toNat := Memory.readBytes_length _ _ _
  have hbit (r c : Nat) (hr : r < (s.readBytes s.i.toNat n.toNat).length) :
      spriteBit (s.readBytes s.i.toNat n.toNat)[r] c = (s.readByte (s.i.toNat + r)).getLsbD (7 - c) :=
    congrArg (spriteBit · c) (Memory.readBytes_getElem s.mem s.i.toNat n.toNat r hr)
  have hindex (r c : Nat) : spriteStart (s.getV x) (s.getV y) + r * screenWidth + c =
      ((s.getV y).toNat + r) * 64 + ((s.getV x).toNat + c) := by
    simp only [spriteStart, screenWidth]
    omega
  rw [rowsCover_iff]
  constructor
  · rintro ⟨r, hr, c, hc, hset, hk⟩
    exact ⟨r, hlen ▸ hr, c, hc, hbit r c hr ▸ hset, hindex r c ▸ hk⟩
  · rintro ⟨r, hr, c, hc, hset, hk⟩
    have hr' := hlen.symm ▸ hr
    exact ⟨r, hr', c, hc, (hbit r c hr').trans hset, (hindex r c).trans hk⟩

/-- Covering depends on the two coordinates, I and memory alone. -/
theorem spriteCovers_congr {s t : State} {x y : Reg} (hx : t.getV x = s.getV x) (hy : t.getV y = s.getV y) (hi : t.i = s.i)
    (hmem : ∀ a, t.readByte a = s.readByte a) (n : Nibble) (k : Nat) :
    SpriteCovers t x y n k ↔ SpriteCovers s x y n k := by
  simp only [SpriteCovers, hx, hy, hi, hmem]

/-! ### Drawing -/

/-- Drawing flips the covered pixels of the screen and no other (43_display.md R211, R212). -/
theorem drawSprite_lit (s : State) (x y : Reg) (n : Nibble) {k : Nat} (hk : k < numPixels) :
    (SpriteCovers s x y n k → Pixels.lit (drawSprite s x y n).fb k = !s.pixel k) ∧
    (¬ SpriteCovers s x y n k → Pixels.lit (drawSprite s x y n).fb k = s.pixel k) := by
  rw [← rowsCover_readBytes_iff]
  exact drawRows_pixel _ _ _ k hk

/-- Drawing collides exactly when a covered pixel of the screen was lit (43_display.md R214). -/
theorem drawSprite_hit_iff (s : State) (x y : Reg) (n : Nibble) :
    (drawSprite s x y n).hit = true ↔ ∃ k < numPixels, SpriteCovers s x y n k ∧ s.pixel k = true := by
  simp only [← rowsCover_readBytes_iff]
  exact (drawRows_hit _ _ _).trans (or_iff_right Bool.false_ne_true)

@[simp] theorem getV_regF_showCanvas (s : State) (c : Canvas) : (showCanvas s c).getV regF = collisionFlag c.hit :=
  s.getV_setV_same regF _

theorem getV_showCanvas_ne (s : State) (c : Canvas) {r : Reg} (h : r ≠ regF) : (showCanvas s c).getV r = s.getV r :=
  s.getV_setV_ne h _

/-- A sprite whose rows are in range is drawn and shown (43_display.md R211, 20_memory.md R66). -/
theorem exec_drw_of_inRange {x y : Reg} {n : Nibble} {s : State} (h : n.toNat = 0 ∨ s.i.toNat + n.toNat ≤ memSize) :
    exec (.drw x y n) s = .next (showCanvas s (drawSprite s x y n)).advance := withRange_of_inRange h

/-- Settles O53: the pixels are the drawn canvas's, and VF is 1 exactly when the canvas was hit. -/
theorem spriteDrawFlipsCoveredPixels : Obligations.SpriteDrawFlipsCoveredPixels := by
  intro x y n s hfits
  have hflag : (showCanvas s (drawSprite s x y n)).advance.getV 0xF = collisionFlag (drawSprite s x y n).hit :=
    getV_regF_showCanvas s _
  refine ⟨_, exec_drw_of_inRange hfits, fun k hk => drawSprite_lit s x y n hk, ?_, ?_, ?_, rfl, rfl,
    onlyChanges_showCanvas_advance s _⟩
  · intro hlit
    rw [hflag, (drawSprite_hit_iff s x y n).mpr hlit]
    rfl
  · intro hdark
    have hmiss : (drawSprite s x y n).hit = false := by
      rw [← Bool.not_eq_true, drawSprite_hit_iff]
      rintro ⟨k, hk, hcov, hlit⟩
      exact Bool.false_ne_true ((hdark k hk hcov).symm.trans hlit)
    rw [hflag, hmiss]
    rfl
  · exact fun r hr => getV_showCanvas_ne s _ hr

/-- Settles O55: with x and y other than F, both draws cover the same pixels, and a covered pixel flips twice. -/
theorem spriteDrawnTwiceRestoresScreen : Obligations.SpriteDrawnTwiceRestoresScreen := by
  intro x y n s t u hx hy hfits hst htu k hk
  obtain ⟨t', ht', hfirst, _, _, hregs, _, _, hframe⟩ := spriteDrawFlipsCoveredPixels x y n s hfits
  cases ht'.symm.trans hst
  have hi : t.i = s.i := hframe .i (by simp)
  have hmem : ∀ a, t.readByte a = s.readByte a := hframe .mem (by simp)
  obtain ⟨u', hu', hsecond, _⟩ := spriteDrawFlipsCoveredPixels x y n t (hi ▸ hfits)
  cases hu'.symm.trans htu
  have hcovers := spriteCovers_congr (hregs x hx) (hregs y hy) hi hmem n k
  by_cases hcov : SpriteCovers s x y n k
  · rw [(hsecond k hk).1 (hcovers.mpr hcov), (hfirst k hk).1 hcov, Bool.not_not]
  · rw [(hsecond k hk).2 (mt hcovers.mp hcov), (hfirst k hk).2 hcov]

end Sys2Proof.Machine
end

section
/-! PROOFS. The statements of 44_timers_keypad.md: the key skips, the key wait and its cycles, and the timers. -/

namespace Sys2Proof.Machine

open Sys2Proof.Claims

/-! ### Key skips -/

/-- A key skip on a number from 0 to 15 skips exactly when that key is in the wanted state (44_timers_keypad.md R240). -/
theorem skipOnKey_of_keyNumber (want : Bool) {x k : Reg} {s : State} (hk : (s.getV x).toNat = k.toNat) :
    ∃ t, skipOnKey want x s = .next t ∧ t.pc = s.pc + (if s.keys.pressed k = want then 4 else 2) ∧
      OnlyChanges [.pc] s t := by
  have hnum : keyNumber (s.getV x) = some k := keyNumber_eq_some.mpr ⟨by omega, hk.symm⟩
  refine ⟨s.skipIf (s.keys.pressed k == want), by simp [skipOnKey, hnum], ?_, onlyChanges_skipIf s _⟩
  rw [State.skipIf_pc]
  by_cases hwant : s.keys.pressed k = want
  · rw [if_pos (beq_iff_eq.mpr hwant), if_pos hwant]
  · rw [if_neg (mt beq_iff_eq.mp hwant), if_neg hwant]

/-- A key skip on a number above 15 takes the KeyIndex fault, whichever state it wants (44_timers_keypad.md R240). -/
theorem skipOnKey_haltedAs (want : Bool) {x : Reg} {s : State} (hbig : (s.getV x).toNat > 15) :
    ∃ t, skipOnKey want x s = .next t ∧ HaltedAs (.outOfBounds (.keyIndex (s.getV x))) s t :=
  ⟨s.halt _, by simp [skipOnKey, keyNumber_eq_none.mpr hbig, raise], haltedAs_halt _ s⟩

/-- Settles O56: the two instructions are one key skip that wants the two states of the key. -/
theorem keySkipsReadTheKey : Obligations.KeySkipsReadTheKey :=
  fun _ _ => ⟨fun _ hk => ⟨skipOnKey_of_keyNumber true hk, skipOnKey_of_keyNumber false hk⟩,
    fun hbig => ⟨skipOnKey_haltedAs true hbig, skipOnKey_haltedAs false hbig⟩⟩

/-! ### The key a wait takes -/

/-- With a key pressed, KEY_SELECT answers a pressed key (44_timers_keypad.md R244). -/
theorem pressed_keySelect (p : Params) {keys : Keys} (h : ∃ k, keys.pressed k = true) :
    keys.pressed (p.keySelect keys) = true := p.keySelect_pressed keys ((Keys.anyPressed_iff keys).mpr h)

/-- The default KEY_SELECT answers the pressed key below which no key is pressed (44_timers_keypad.md R244). -/
theorem lowestPressed_eq {keys : Keys} {k : Reg} (hk : keys.pressed k = true)
    (hlow : ∀ j : Reg, j.toNat < k.toNat → keys.pressed j = false) : lowestPressed keys = k := by
  have hlen : k.toNat < keys.toList.length := by simpa using k.isLt
  have hfirst : keys.toList.findIdx id = k.toNat := by
    rw [List.findIdx_eq hlen]
    constructor
    · simpa [Keys.pressed] using hk
    · intro j hj
      have hj16 : j < 16 := hj.trans k.isLt
      simpa [Keys.pressed, Nat.mod_eq_of_lt hj16, hj] using hlow (BitVec.ofNat 4 j)
  rw [lowestPressed, hfirst, BitVec.ofNat_toNat, BitVec.setWidth_eq]

theorem getV_takeKey_same (s : State) (p : Params) (x : Reg) : (s.takeKey p x).getV x = (p.keySelect s.keys).setWidth 8 := by
  rw [State.getV_takeKey, if_pos rfl]

theorem getV_takeKey_ne (s : State) (p : Params) {x r : Reg} (h : r ≠ x) : (s.takeKey p x).getV r = s.getV r := by
  rw [State.getV_takeKey, if_neg h]

/-! ### The key wait and its cycles -/

theorem onlyChanges_setStatus (s : State) (status : Status) : OnlyChanges [.status] s { s with status := status } :=
  (onlyChanges_iff _ _ _).mpr (by simp [State.readByte, State.stackEntry, State.getV])

theorem waitKey_of_pressed (p : Params) (x : Reg) {s : State} (h : ∃ k, s.keys.pressed k = true) :
    waitKey p x s = .next (s.takeKey p x) := if_pos ((Keys.anyPressed_iff _).mpr h)

theorem waitKey_of_not_pressed (p : Params) (x : Reg) {s : State} (h : ∀ k, s.keys.pressed k = false) :
    waitKey p x s = .next { s with status := .awaitingKey x } := by
  rw [waitKey, anyPressed_eq_false h, if_neg Bool.false_ne_true]

/-- Settles O58: the key taken is KEY_SELECT's, which is pressed, so it is the pressed key when there is one only. -/
theorem anyKeySelectStoresPressedKey : Obligations.AnyKeySelectStoresPressedKey := by
  intro p x s
  constructor
  · intro hany
    have hsel := pressed_keySelect p hany
    exact ⟨s.takeKey p x, p.keySelect s.keys, waitKey_of_pressed p x hany, getV_takeKey_same s p x, rfl, hsel,
      fun _ honly => honly _ hsel, fun _ hr => getV_takeKey_ne s p hr, rfl, onlyChanges_takeKey s p x⟩
  · intro hnone
    exact ⟨_, waitKey_of_not_pressed p x hnone, rfl, onlyChanges_setStatus s _⟩

/-- Settles O57: the default executor is the one whose KEY_SELECT is the lowest pressed key. -/
theorem keyWaitTakesLowestKeyOrWaits : Obligations.KeyWaitTakesLowestKeyOrWaits := by
  intro x s
  rw [← execWith_default (.ldVxK x) s]
  obtain ⟨htakes, hwaits⟩ := anyKeySelectStoresPressedKey defaultParams x s
  refine ⟨?_, hwaits⟩
  intro k hk hlow
  obtain ⟨t, j, hexec, hval, hj, _, _, hregs, hpc, hframe⟩ := htakes ⟨k, hk⟩
  have hjk : j = k := hj.trans (lowestPressed_eq hk hlow)
  have hnat : (t.getV x).toNat = k.toNat := by
    rw [hval, hjk]
    exact BitVec.toNat_setWidth_of_le (by decide)
  exact ⟨t, hexec, hnat, hregs, hpc, hframe⟩

/-- With a key pressed, a waiting cycle takes the key and the core runs (44_timers_keypad.md R243). -/
theorem stepWith_awaitingKey_of_pressed {p : Params} {s : State} {x : Reg} (hwait : s.status = .awaitingKey x)
    (h : ∃ k, s.keys.pressed k = true) : stepWith p s = .next { s.takeKey p x with status := .running } := by
  rw [stepWith, runCycle_awaitingKey hwait, awaitKeyStep, if_pos ((Keys.anyPressed_iff _).mpr h)]

/-- Settles O12: with no key pressed the wait is a fixed point of the cycle, and else the cycle takes KEY_SELECT's key. -/
theorem waitingCycleRechecksKeypad : Obligations.WaitingCycleRechecksKeypad := by
  intro p s x hwait
  constructor
  · intro hnone
    exact stepWith_of_waitsForKey p ⟨⟨x, hwait⟩, anyPressed_eq_false hnone⟩
  · intro hany
    have htake : OnlyChanges [.v, .pc, .status] s (s.takeKey p x) := (onlyChanges_takeKey s p x).mono (by simp)
    have hframe := htake.trans ((onlyChanges_setStatus _ .running).mono (by simp))
    exact ⟨_, stepWith_awaitingKey_of_pressed hwait hany, getV_takeKey_same s p x, pressed_keySelect p hany,
      fun _ hr => getV_takeKey_ne s p hr, rfl, rfl, hframe⟩

/-! ### The timers -/

/-- Settles O59: the timer's byte is one register write. -/
theorem delayTimerIsRead : Obligations.DelayTimerIsRead :=
  fun _ => writesReg_of_exec_eq (fun _ => rfl) (fun _ => rfl)

theorem onlyChanges_setDT_advance (s : State) (b : Byte) : OnlyChanges [.dt, .pc] s (State.advance { s with dt := b }) :=
  (onlyChanges_iff _ _ _).mpr (by simp [State.readByte, State.stackEntry, State.getV])

theorem onlyChanges_setST_advance (s : State) (b : Byte) : OnlyChanges [.st, .pc] s (State.advance { s with st := b }) :=
  (onlyChanges_iff _ _ _).mpr (by simp [State.readByte, State.stackEntry, State.getV])

/-- Settles O60: each timer takes Vx, and sound_on is read from ST, so it follows in the same state. -/
theorem timersAreSet : Obligations.TimersAreSet :=
  ⟨fun _ s => ⟨_, rfl, rfl, rfl, onlyChanges_setDT_advance s _⟩,
    fun _ s => ⟨_, rfl, rfl, rfl, rfl, onlyChanges_setST_advance s _⟩⟩

end Sys2Proof.Machine
end

section
/-! PROOFS. The statements of 60_exceptions.md: precise faults, the terminal Halted, the end of a session, the hangs, and
the host's tick, set_key and acknowledge_redraw. -/

namespace Sys2Proof.Machine

/-! ### Precise faults -/

/-- A Halted core is its own halt (60_exceptions.md R274). -/
theorem State.halt_of_halted {s : State} {r : HaltReason} (h : s.status = .halted r) : s.halt r = s := by
  rw [State.halt, ← h]

/-- An answer that is Halted raised its fault, so it is the old state but for its status (60_exceptions.md R273). -/
theorem FaultsAs.eq_halt {s t : State} {o : Result} {f : Option HaltReason} {r : HaltReason} (h : FaultsAs s o f)
    (ho : o = .next t) (ht : t.status = .halted r) : t = s.halt r := by
  have hfault : f = some r := (h.halted_iff r).mp ⟨t, ho, ht⟩
  subst hfault
  have hraise : o = raise r s := h
  exact raise_next (hraise.symm.trans ho)

/-- A cycle of a waiting core does not halt (44_timers_keypad.md R243). -/
theorem awaitKeyStep_not_halted {p : Params} {x : Reg} {s : State} (hwait : s.status = .awaitingKey x) (r : HaltReason) :
    (awaitKeyStep p x s).status ≠ .halted r := by
  rcases awaitKeyStep_eq p x s with ⟨_, e⟩ | ⟨_, e⟩ <;> rw [e]
  · exact nofun
  · exact hwait ▸ nofun

/-- Settles O14: a Running core raises the table's fault, a waiting one does not halt, a Halted one stays. -/
theorem faultsArePrecise : Obligations.FaultsArePrecise := by
  intro p s t r h ht
  cases hs : s.status with
  | running => exact (stepWith_faultsAs hs p).eq_halt h ht
  | awaitingKey x =>
    cases (runCycle_awaitingKey hs).symm.trans h
    exact absurd ht (awaitKeyStep_not_halted hs r)
  | halted q =>
    cases (runCycle_halted hs).symm.trans h
    exact (State.halt_of_halted ht).symm

/-! ### What an event does to the status -/

theorem load_status {rom : List Byte} {s t : State} (h : load rom s = .ok t) : t.status = s.status := by
  unfold load at h
  split at h
  · cases h
  · cases h
    exact State.writeBytes_status s progBase rom

/-- Every event of a session answers a next state (60_exceptions.md R284). -/
theorem applyEvent_next (p : Params) (e : Event) (s : State) : ∃ t, applyEvent p e s = .next t := by
  cases e with
  | load rom =>
    rw [applyEvent]
    split
    · exact ⟨_, rfl⟩
    · exact ⟨_, rfl⟩
  | cycle => exact everyCycleAnswersNextState p s
  | construct | tick | setKey | acknowledge => exact ⟨_, rfl⟩

/-- No event but a construction leaves Halted: a cycle changes nothing there, and the other operations of the host write no
status (60_exceptions.md R274, R283). -/
theorem applyEvent_status_of_halted {p : Params} {e : Event} {s t : State} {r : HaltReason} (hs : s.status = .halted r)
    (he : e ≠ .construct) (h : applyEvent p e s = .next t) : t.status = .halted r := by
  cases e with
  | construct => exact absurd rfl he
  | load rom =>
    rw [applyEvent] at h
    split at h
    · next u hload =>
      cases h
      exact (load_status hload).trans hs
    · cases h
      exact hs
  | cycle =>
    cases (runCycle_halted hs).symm.trans h
    exact hs
  | tick | setKey | acknowledge =>
    cases h
    exact hs

/-- Without a construction a session does not leave Halted. -/
theorem runEvents_status_of_halted {p : Params} {r : HaltReason} {t : State} : ∀ {es : List Event} {s : State},
    s.status = .halted r → .construct ∉ es → runEvents p es s = .next t → t.status = .halted r := by
  intro es
  induction es with
  | nil =>
    intro s hs _ h
    cases h
    exact hs
  | cons e es ih =>
    intro s hs hes h
    obtain ⟨u, hu, hrest⟩ := runEvents_cons_eq_next.mp h
    have hhalted : u.status = .halted r := applyEvent_status_of_halted hs (List.ne_of_not_mem_cons hes).symm hu
    exact ih hhalted (List.not_mem_of_not_mem_cons hes) hrest

/-! ### What the driver is told -/

theorem surface_of_halted {t : State} {r : HaltReason} (h : t.status = .halted r) :
    surface (.next t) = .fault (.halted r) := by
  simp [surface, h]

/-- A fault ends the session for the driver, whatever events follow (70_reset_and_hazards.md R315). -/
theorem driveEvents_cons_of_halted {p : Params} {e : Event} {s u : State} {r : HaltReason} (h : applyEvent p e s = .next u)
    (hu : u.status = .halted r) (es : List Event) : driveEvents p (e :: es) s = .fault (.halted r) := by
  rw [driveEvents, h, surface_of_halted hu]

/-- An event that does not fault is passed over. -/
theorem driveEvents_cons_of_not_halted {p : Params} {e : Event} {s u : State} (h : applyEvent p e s = .next u)
    (hu : ∀ r, u.status ≠ .halted r) (es : List Event) : driveEvents p (e :: es) s = driveEvents p es u := by
  rw [driveEvents, h, surface_eq_next.mpr ⟨rfl, hu⟩]

/-- A session whose driver is told of a fault is not safe. -/
theorem not_safeSession_of_fault {p : Params} {es : List Event} {s : State} {f : Fault} (h : driveEvents p es s = .fault f) :
    ¬ safeSession p es s :=
  fun ⟨_, ht⟩ => nomatch h.symm.trans ht

theorem safeSession_of_finishedSession {p : Params} {es : List Event} {s : State} (h : finishedSession p es s) :
    safeSession p es s :=
  h.imp fun _ => And.left

theorem drive_of_halted (p : Params) {s : State} {r : HaltReason} (hs : s.status = .halted r) (n : Nat) :
    drive p n s = .fault (.halted r) := by
  cases n with
  | zero => exact surface_of_halted hs
  | succ n => exact driveEvents_cons_of_halted (e := .cycle) (runCycle_halted hs) hs (List.replicate n .cycle)

/-- Settles O11: the cycle's arm for Halted, surfaced, and the status each event leaves. -/
theorem haltedIsTerminal : Obligations.HaltedIsTerminal := by
  intro p s r hs
  have hstay : stepWith p s = .next s := runCycle_halted hs
  refine ⟨hstay, hstay ▸ surface_of_halted hs, ?_, ?_, ⟨_, rfl, rfl⟩⟩
  · intro n
    have hdrive := drive_of_halted p hs n
    exact ⟨hdrive, not_safeSession_of_fault hdrive⟩
  · intro e he
    obtain ⟨t, ht⟩ := applyEvent_next p e s
    exact ⟨t, ht, applyEvent_status_of_halted hs he ht⟩

/-- The driver of a session is told of its first fault, which without a construction is still the last state's status; with
no fault it is told the last state (70_reset_and_hazards.md R315, 60_exceptions.md R274). -/
theorem driveEvents_of_runEvents {p : Params} {t : State} : ∀ {es : List Event} {s : State}, runEvents p es s = .next t →
    (∃ r, driveEvents p es s = .fault (.halted r) ∧ (.construct ∉ es → t.status = .halted r)) ∨
    (driveEvents p es s = .next t ∧ ∀ r, t.status ≠ .halted r) := by
  intro es
  induction es with
  | nil =>
    intro s h
    cases h
    by_cases ht : t.isHalted
    · obtain ⟨r, hr⟩ := ht
      exact .inl ⟨r, surface_of_halted hr, fun _ => hr⟩
    · have hnot : ∀ r, t.status ≠ .halted r := not_exists.mp ht
      exact .inr ⟨surface_eq_next.mpr ⟨rfl, hnot⟩, hnot⟩
  | cons e es ih =>
    intro s h
    obtain ⟨u, hu, hrest⟩ := runEvents_cons_eq_next.mp h
    by_cases hhalt : u.isHalted
    · obtain ⟨r, hr⟩ := hhalt
      exact .inl ⟨r, driveEvents_cons_of_halted hu hr es, fun hes =>
        runEvents_status_of_halted hr (List.not_mem_of_not_mem_cons hes) hrest⟩
    · rw [driveEvents_cons_of_not_halted hu (not_exists.mp hhalt)]
      exact (ih hrest).imp_left fun ⟨r, hdrive, hlast⟩ =>
        ⟨r, hdrive, fun hes => hlast (List.not_mem_of_not_mem_cons hes)⟩

/-- Settles O16: the driver was told of a fault, or the last state is not Halted. -/
theorem haltedIsNoSuccessfulEnd : Obligations.HaltedIsNoSuccessfulEnd := by
  intro p es s t h
  rcases driveEvents_of_runEvents h with ⟨r, hdrive, hlast⟩ | ⟨hdrive, hnot⟩
  · have hunsafe : ¬ safeSession p es s := not_safeSession_of_fault hdrive
    exact ⟨fun _ _ => ⟨⟨r, hdrive⟩, hunsafe, mt safeSession_of_finishedSession hunsafe⟩,
      fun hes => hdrive.trans (surface_of_halted (hlast hes)).symm⟩
  · exact ⟨fun r hr => absurd hr (hnot r), fun _ => hdrive.trans (surface_eq_next.mpr ⟨rfl, hnot⟩).symm⟩

/-! ### Hangs -/

/-- A hung core is not Halted: it waits, or it executes now, or it executes later, which no Halted core does. -/
theorem State.isHung.not_halted {p : Params} {s : State} (h : s.isHung p) (r : HaltReason) : s.status ≠ .halted r := by
  intro hs
  rcases h with ⟨⟨x, hwait⟩, _⟩ | ⟨_, ⟨hrun, _⟩, _⟩ | hpolls
  · exact nomatch hs.symm.trans hwait
  · exact nomatch hs.symm.trans hrun
  · obtain ⟨m, _, t, x, hreach, ⟨hrun, _⟩⟩ := hpolls 0
    have hstay : cycles p m s = .next s := cycles_fixed (runCycle_halted hs) m
    cases hstay.symm.trans hreach
    exact nomatch hs.symm.trans hrun

/-- The first cycle of a polling run leads to a polling run. -/
theorem State.pollsDelayTimer.next {p : Params} {s t : State} (h : s.pollsDelayTimer p) (hstep : stepWith p s = .next t) :
    t.pollsDelayTimer p := by
  intro n
  obtain ⟨m, hm, u, x, hreach, hpoll⟩ := h (n + 1)
  obtain ⟨m, rfl⟩ : ∃ k, m = k + 1 := ⟨m - 1, by omega⟩
  obtain ⟨v, hv, hrest⟩ := cycles_succ_eq_next.mp hreach
  cases hstep.symm.trans hv
  exact ⟨m, by omega, u, x, hrest, hpoll⟩

/-- A cycle does not end a hang (60_exceptions.md R289). -/
theorem State.isHung.stepWith_next {p : Params} {s : State} (h : s.isHung p) : ∃ t, stepWith p s = .next t ∧ t.isHung p := by
  rcases h with hwaits | hjumps | hpolls
  · exact ⟨s, stepWith_of_waitsForKey p hwaits, .inl hwaits⟩
  · exact ⟨s, stepWith_of_jumpsToItself hjumps, .inr (.inl hjumps)⟩
  · obtain ⟨t, ht⟩ := everyCycleAnswersNextState p s
    exact ⟨t, ht, .inr (.inr (hpolls.next ht))⟩

/-- However many cycles run, the driver of a hung core is told of a hung core. -/
theorem State.isHung.drive_next {p : Params} (n : Nat) : ∀ {s : State}, s.isHung p →
    ∃ t, drive p n s = .next t ∧ t.isHung p := by
  induction n with
  | zero => exact fun {s} h => ⟨s, surface_eq_next.mpr ⟨rfl, h.not_halted⟩, h⟩
  | succ n ih =>
    intro s h
    obtain ⟨u, hu, hhung⟩ := h.stepWith_next
    obtain ⟨t, ht, hlast⟩ := ih hhung
    exact ⟨t, driveEvents_cons_eq_next.mpr ⟨u, hu, hhung.not_halted, ht⟩, hlast⟩

/-- Settles O18: the state a run of a hung core reaches is hung, so it is neither a fault nor a finished end. -/
theorem hangsNeverFinish : Obligations.HangsNeverFinish := by
  intro p s h n
  obtain ⟨t, ht, hhung⟩ := h.drive_next n
  refine ⟨⟨t, ht⟩, ?_⟩
  rintro ⟨u, hu, hnot⟩
  cases ht.symm.trans hu
  exact hnot hhung

/-! ### The host's operations -/

/-- A timer's decrement is the truncated subtraction (60_exceptions.md R280). -/
@[simp] theorem countDown_toNat (t : Byte) : (countDown t).toNat = t.toNat - 1 := by
  unfold countDown
  split
  · bv_omega
  · omega

theorem onlyChanges_tick (s : State) : OnlyChanges [.dt, .st] s (tick s) :=
  (onlyChanges_iff _ _ _).mpr (by simp [tick, State.readByte, State.stackEntry, State.getV])

/-- Settles O30: each timer is counted down by itself. -/
theorem tickCountsBothTimersDown : Obligations.TickCountsBothTimersDown :=
  fun s => ⟨countDown_toNat s.dt, countDown_toNat s.st, onlyChanges_tick s⟩

theorem pressed_setKey_same (s : State) (k : Reg) (b : Bool) : (setKey k b s).keys.pressed k = b := by
  simp [setKey, Keys.pressed]

theorem pressed_setKey_ne (s : State) {j k : Reg} (h : j ≠ k) (b : Bool) :
    (setKey k b s).keys.pressed j = s.keys.pressed j :=
  Vector.getElem_set_ne k.isLt j.isLt (reg_toNat_ne h.symm)

theorem onlyChanges_setKey (s : State) (k : Reg) (b : Bool) : OnlyChanges [.keys] s (setKey k b s) :=
  (onlyChanges_iff _ _ _).mpr (by simp [setKey, State.readByte, State.stackEntry, State.getV])

theorem onlyChanges_acknowledgeRedraw (s : State) : OnlyChanges [.redraw] s (acknowledgeRedraw s) :=
  (onlyChanges_iff _ _ _).mpr (by simp [acknowledgeRedraw, State.readByte, State.stackEntry, State.getV])

/-- Settles O31: one entry of the keypad is written, and one signal. -/
theorem setKeyAndAcknowledgeWriteOnePart : Obligations.SetKeyAndAcknowledgeWriteOnePart :=
  ⟨fun s k b => ⟨pressed_setKey_same s k b, fun _ hj => pressed_setKey_ne s hj b, onlyChanges_setKey s k b⟩,
    fun s => ⟨rfl, onlyChanges_acknowledgeRedraw s⟩⟩

end Sys2Proof.Machine
end

section
/-! PROOFS. The statements of 70_reset_and_hazards.md: construction at the default FONT, and the host's load. -/

namespace Sys2Proof.Machine

/-! ### Construction with the default FONT -/

/-- Storing into fresh memory what its addresses read as already lists nothing (20_memory.md R63). -/
theorem Memory.writeBytes_nil_initial (bs : List Byte) : ∀ a : Nat,
    (∀ k (h : k < bs.length), bs[k] = Memory.initial (a + k)) → Memory.writeBytes [] a bs = [] := by
  induction bs with
  | nil => exact fun _ _ => rfl
  | cons b bs ih =>
    intro a h
    have hwrite : Memory.write [] a b = [] := if_pos (h 0 (Nat.zero_lt_succ _))
    rw [Memory.writeBytes, hwrite]
    refine ih (a + 1) fun k hk => ?_
    rw [Nat.add_right_comm, Nat.add_assoc]
    exact h (k + 1) (Nat.succ_lt_succ hk)

/-- Unlisted memory reads as the default FONT from 0x000 on (20_memory.md R64). -/
theorem Memory.initial_of_lt {k : Nat} (h : k < fontTable.length) : Memory.initial k = fontTable[k] :=
  List.getD_eq_getElem fontTable 0 h

/-- Settles O28: the default FONT is what fresh memory reads as, so storing it lists nothing. -/
theorem resetIsDefaultConstruction : Obligations.ResetIsDefaultConstruction := by
  have hmem : Memory.writeBytes [] 0 defaultParams.font.toList = [] :=
    Memory.writeBytes_nil_initial fontTable 0 fun k hk => by rw [Nat.zero_add, Memory.initial_of_lt hk]
  rw [Obligations.ResetIsDefaultConstruction, construct, State.writeBytes]
  exact congrArg (fun m => { State.reset with mem := m }) hmem

/-! ### Load -/

theorem load_of_le {rom : List Byte} (h : rom.length ≤ romMax) (s : State) :
    load rom s = .ok (s.writeBytes progBase rom) := if_neg (Nat.not_lt.mpr h)

theorem load_of_gt {rom : List Byte} (h : rom.length > romMax) (s : State) :
    load rom s = .error (.capacity rom.length) := if_pos h

/-- The event of a load that succeeds answers the loaded state. -/
theorem applyEvent_load_of_ok (p : Params) {rom : List Byte} {s t : State} (h : load rom s = .ok t) :
    applyEvent p (.load rom) s = .next t := by
  rw [applyEvent, h]

/-- The event of a load that fails answers the state as it was (60_exceptions.md R271). -/
theorem applyEvent_load_of_error (p : Params) {rom : List Byte} {s : State} {e : LoadError} (h : load rom s = .error e) :
    applyEvent p (.load rom) s = .next s := by
  rw [applyEvent, h]

theorem onlyChanges_writeBytes (s : State) (a : Nat) (bs : List Byte) : OnlyChanges [.mem] s (s.writeBytes a bs) :=
  (onlyChanges_iff _ _ _).mpr (by simp [State.stackEntry])

/-- Settles O29: a load that fits is one multi-byte store at 0x200, in any status; a longer one fails. -/
theorem loadPlacesRomOrFails : Obligations.LoadPlacesRomOrFails := by
  intro p rom s
  constructor
  · intro hfits
    have hload := load_of_le hfits s
    exact ⟨s.writeBytes progBase rom, hload, applyEvent_load_of_ok p hload,
      fun k hk => s.readByte_writeBytes_inside progBase k rom hk,
      fun _ ha => s.readByte_writeBytes_outside progBase rom ha, onlyChanges_writeBytes s progBase rom⟩
  · intro hlong
    have hload := load_of_gt hlong s
    exact ⟨hload, applyEvent_load_of_error p hload⟩

end Sys2Proof.Machine
end

section
/-! PROOFS. The representation of memory (20_memory.md R60), and `Fx33` in the default BCD_MODE (42_index_memory.md R183). -/

namespace Sys2Proof.Machine

/-! ### One canonical form per contents -/

theorem Memory.read_cons_same (c : Host.Cell) (m : Memory) : Memory.read (c :: m) c.1 = c.2 := if_pos rfl

theorem Memory.read_cons_ne {c : Host.Cell} (m : Memory) {a : Nat} (h : c.1 ≠ a) :
    Memory.read (c :: m) a = Memory.read m a := if_neg h

/-- When the addresses rise, no listed byte hides another. -/
theorem Memory.read_of_mem {m : Memory} (hm : m.Pairwise (fun c d => c.1 < d.1)) {c : Host.Cell} (hc : c ∈ m) :
    m.read c.1 = c.2 := by
  induction m with
  | nil => cases hc
  | cons d m ih =>
    obtain ⟨hfirst, hrest⟩ := List.pairwise_cons.mp hm
    rcases List.mem_cons.mp hc with rfl | hc
    · exact Memory.read_cons_same c m
    · rw [Memory.read_cons_ne m (hfirst c hc).ne, ih hrest hc]

/-- A byte that differs from the contents after construction is listed. -/
theorem Memory.mem_of_read_ne_initial {m : Memory} {a : Nat} (h : m.read a ≠ Memory.initial a) : (a, m.read a) ∈ m := by
  induction m with
  | nil => exact absurd rfl h
  | cons c m ih =>
    by_cases hc : c.1 = a
    · subst hc
      rw [Memory.read_cons_same]
      exact List.mem_cons_self
    · rw [Memory.read_cons_ne m hc] at h ⊢
      exact List.mem_cons_of_mem c (ih h)

/-- A canonical memory lists exactly the bytes that differ from their contents after construction (20_memory.md R63). -/
theorem Memory.mem_iff_read {m : Memory} (hm : m.wf = true) (a : Nat) (b : Byte) :
    (a, b) ∈ m ↔ m.read a = b ∧ b ≠ Memory.initial a := by
  obtain ⟨hrising, hlisted⟩ := (Memory.wf_iff m).mp hm
  constructor
  · exact fun h => ⟨Memory.read_of_mem hrising h, (hlisted _ h).2⟩
  · rintro ⟨rfl, hb⟩
    exact Memory.mem_of_read_ne_initial hb

/-- Lists of pairs with rising addresses are equal when they list the same pairs. -/
theorem Memory.eq_of_rising_of_mem_iff {m m' : Memory} (hm : m.Pairwise (fun c d => c.1 < d.1))
    (hm' : m'.Pairwise (fun c d => c.1 < d.1)) (h : ∀ c, c ∈ m ↔ c ∈ m') : m = m' := by
  have hirrefl : Std.Irrefl fun c d : Host.Cell => c.1 < d.1 := ⟨fun c => lt_irrefl c.1⟩
  have hasymm : Std.Asymm fun c d : Host.Cell => c.1 < d.1 := ⟨fun _ _ => Nat.lt_asymm⟩
  exact hm.eq_of_mem_iff hm' h

/-- Settles O22: the contents say which pairs a canonical memory lists, and the rising addresses say in which order. -/
theorem canonicalMemoryIsUnique : Obligations.CanonicalMemoryIsUnique := by
  intro m m' hm hm' hread
  refine Memory.eq_of_rising_of_mem_iff ((Memory.wf_iff m).mp hm).1 ((Memory.wf_iff m').mp hm').1 ?_
  rintro ⟨a, b⟩
  rw [Memory.mem_iff_read hm, Memory.mem_iff_read hm', hread]

/-! ### The decimal store in the default mode -/

/-- Settles O48: `Fx33` at the default parameters (decision D6), and the three digits put together are the byte. -/
theorem defaultDecimalStoreCompletes : Obligations.DefaultDecimalStoreCompletes := by
  intro x s
  rw [← execWith_default (.ldB x) s]
  obtain ⟨hstore, hfault⟩ := decimalDigitsAreStored defaultParams x s
  refine ⟨fun hfits => ?_, hfault⟩
  obtain ⟨t, ht, hhundreds, htens, hstandard, -, houtside, hpc, hframe⟩ := hstore hfits
  have hones := hstandard rfl
  have hbyte := (s.getV x).isLt
  refine ⟨t, ht, ?_, ?_, ?_, ?_, houtside, hpc, hframe⟩ <;> omega

end Sys2Proof.Machine
end
